-- ==== Sys2Proof/Word.lean ====
section
/-! DEFINITION. The word types of the hardware: 64-bit register values and addresses (`00_scope.md` R5),
8-bit bytes, 32-bit instruction words (`30_encoding.md` R70) and 5-bit register indices (`10_state.md` R20). -/

namespace Sys2Proof

/-- A register value, an address or the pc: a 64-bit pattern (R5, XLEN = 64). `+` and `-` on it are modulo 2^64 (R122). -/
abbrev Word := BitVec 64

/-- One byte of memory (R5, R26). -/
abbrev Byte := BitVec 8

/-- One instruction word; every instruction is one 32-bit word (R70). -/
abbrev InstrWord := BitVec 32

/-- A register index 0..31, taken from a 5-bit field (R20). -/
abbrev Reg := Fin 32

end Sys2Proof
end

