-- ==== Sys2Proof/Config.lean ====
section
/-! DEFINITION. The parameters of the hardware that the spec leaves open (`00_scope.md` R5,
`92_eei_decisions.md` D1 to D4), as one structure that every reset from an image takes
(`Machine/Boot.lean`), and the values this model names for the one `State.reset`.
No instruction rule leaves a value open, so there is no free value here. -/

namespace Sys2Proof

/-- A segment handed over by the image loader: "a contiguous range of program bytes with an associated
load address" (`00_scope.md` glossary, R253). -/
structure Segment where
  loadAddr : Word
  payload  : List Byte
deriving DecidableEq, Repr

/-- The open parameters of R5: MEM_SIZE, ENTRY, X_RESET[1..31] and IMAGE. -/
structure Params where
  memSize : Nat
  entry   : Word
  xReset  : Vector Word 31
  image   : List Segment
deriving DecidableEq, Repr

/-- D1: the spec constrains 4 <= MEM_SIZE < 2^63. -/
abbrev Params.sizeOk (p : Params) : Prop := 4 ≤ p.memSize ∧ p.memSize < 2 ^ 63

/-- MEM_SIZE of `State.reset`: 1 MiB, the source's own example ("size chosen at construction, e.g. 1 MiB",
R5; D1 lets a model fix 2^20). DESIGN CHOICE, log entry 1. -/
def Config.memSize : Nat := 0x100000

/-- ENTRY of `State.reset`: 0x1000, where the spec's own programs are loaded (`95_test_vectors.md` section 3).
DESIGN CHOICE, log entry 2. -/
def Config.entry : Word := 0x1000

/-- X_RESET of `State.reset`: the spec states no value (D3, N1). DESIGN CHOICE zero, log entry 3. -/
def Config.xReset : Vector Word 31 := Vector.replicate 31 0

/-- IMAGE of `State.reset`: no segment, since a program comes from outside the machine (R4, R252).
DESIGN CHOICE, log entry 4. -/
def Config.image : List Segment := []

/-- The parameters `State.reset` is built from. -/
def Config.params : Params :=
  { memSize := Config.memSize, entry := Config.entry, xReset := Config.xReset, image := Config.image }

end Sys2Proof
end

