-- ==== Sys2Proof/Syntax.lean ====
section
/-! DEFINITION. The 51 instructions of the dispatch table (`30_encoding.md` R84), one constructor a row.
Operands are what R71 to R79 name: register indices, and each format's immediate at its own width,
already assembled from its split fields: I and S 12 bits, B 13 bits with bit 0, U the 20-bit field
word[31:12], J 21 bits with bit 0, shift amounts 6 or 5 bits. The extension to 64 bits is an operand
form (`Machine/Operands.lean`). The tag selects exactly one execute arm (R113). -/

namespace Sys2Proof

/-- A decoded instruction (R83, R84, R113). -/
inductive Instr where
  /-- LUI: load upper immediate (`41_upper_immediate.md` R130). -/
  | lui (rd : Reg) (imm : BitVec 20)
  /-- AUIPC: add upper immediate to pc (R131). -/
  | auipc (rd : Reg) (imm : BitVec 20)
  /-- JAL: jump and link (`42_jumps.md` R135). -/
  | jal (rd : Reg) (imm : BitVec 21)
  /-- JALR: jump and link register (R136). -/
  | jalr (rd rs1 : Reg) (imm : BitVec 12)
  /-- BEQ: branch if equal (`43_branches.md` R141). -/
  | beq (rs1 rs2 : Reg) (imm : BitVec 13)
  /-- BNE: branch if not equal (R142). -/
  | bne (rs1 rs2 : Reg) (imm : BitVec 13)
  /-- BLT: branch if less, signed (R143). -/
  | blt (rs1 rs2 : Reg) (imm : BitVec 13)
  /-- BGE: branch if greater or equal, signed (R144). -/
  | bge (rs1 rs2 : Reg) (imm : BitVec 13)
  /-- BLTU: branch if less, unsigned (R145). -/
  | bltu (rs1 rs2 : Reg) (imm : BitVec 13)
  /-- BGEU: branch if greater or equal, unsigned (R146). -/
  | bgeu (rs1 rs2 : Reg) (imm : BitVec 13)
  /-- LB: load byte, signed (`44_loads.md` R151). -/
  | lb (rd rs1 : Reg) (imm : BitVec 12)
  /-- LH: load halfword, signed (R152). -/
  | lh (rd rs1 : Reg) (imm : BitVec 12)
  /-- LW: load word, signed (R153). -/
  | lw (rd rs1 : Reg) (imm : BitVec 12)
  /-- LBU: load byte, unsigned (R154). -/
  | lbu (rd rs1 : Reg) (imm : BitVec 12)
  /-- LHU: load halfword, unsigned (R155). -/
  | lhu (rd rs1 : Reg) (imm : BitVec 12)
  /-- LWU: load word, unsigned (R156). -/
  | lwu (rd rs1 : Reg) (imm : BitVec 12)
  /-- LD: load doubleword (R157). -/
  | ld (rd rs1 : Reg) (imm : BitVec 12)
  /-- SB: store byte (`45_stores.md` R161). -/
  | sb (rs1 rs2 : Reg) (imm : BitVec 12)
  /-- SH: store halfword (R162). -/
  | sh (rs1 rs2 : Reg) (imm : BitVec 12)
  /-- SW: store word (R163). -/
  | sw (rs1 rs2 : Reg) (imm : BitVec 12)
  /-- SD: store doubleword (R164). -/
  | sd (rs1 rs2 : Reg) (imm : BitVec 12)
  /-- ADDI: add immediate (`46_alu_immediate.md` R170). -/
  | addi (rd rs1 : Reg) (imm : BitVec 12)
  /-- SLTI: set if less than immediate, signed (R171). -/
  | slti (rd rs1 : Reg) (imm : BitVec 12)
  /-- SLTIU: set if less than immediate, unsigned (R172). -/
  | sltiu (rd rs1 : Reg) (imm : BitVec 12)
  /-- XORI: exclusive or with immediate (R173). -/
  | xori (rd rs1 : Reg) (imm : BitVec 12)
  /-- ORI: or with immediate (R174). -/
  | ori (rd rs1 : Reg) (imm : BitVec 12)
  /-- ANDI: and with immediate (R175). -/
  | andi (rd rs1 : Reg) (imm : BitVec 12)
  /-- SLLI: shift left logical by a 6-bit amount (R176). -/
  | slli (rd rs1 : Reg) (shamt : BitVec 6)
  /-- SRLI: shift right logical by a 6-bit amount (R177). -/
  | srli (rd rs1 : Reg) (shamt : BitVec 6)
  /-- SRAI: shift right arithmetic by a 6-bit amount (R178). -/
  | srai (rd rs1 : Reg) (shamt : BitVec 6)
  /-- ADD: add (`47_alu_register.md` R185). -/
  | add (rd rs1 rs2 : Reg)
  /-- SUB: subtract (R186). -/
  | sub (rd rs1 rs2 : Reg)
  /-- SLL: shift left logical (R187). -/
  | sll (rd rs1 rs2 : Reg)
  /-- SLT: set if less, signed (R188). -/
  | slt (rd rs1 rs2 : Reg)
  /-- SLTU: set if less, unsigned (R189). -/
  | sltu (rd rs1 rs2 : Reg)
  /-- XOR: exclusive or (R190). -/
  | xor (rd rs1 rs2 : Reg)
  /-- SRL: shift right logical (R191). -/
  | srl (rd rs1 rs2 : Reg)
  /-- SRA: shift right arithmetic (R192). -/
  | sra (rd rs1 rs2 : Reg)
  /-- OR: or (R193). -/
  | or (rd rs1 rs2 : Reg)
  /-- AND: and (R194). -/
  | and (rd rs1 rs2 : Reg)
  /-- ECALL: environment call (`48_system.md` R200); rd and rs1 fields are not examined (R90). -/
  | ecall
  /-- EBREAK: breakpoint (R201); rd and rs1 fields are not examined (R90). -/
  | ebreak
  /-- ADDIW: add immediate, 32 bits (`49_word_ops.md` R205). -/
  | addiw (rd rs1 : Reg) (imm : BitVec 12)
  /-- SLLIW: shift left logical by a 5-bit amount, 32 bits (R206). -/
  | slliw (rd rs1 : Reg) (shamt : BitVec 5)
  /-- SRLIW: shift right logical by a 5-bit amount, 32 bits (R207). -/
  | srliw (rd rs1 : Reg) (shamt : BitVec 5)
  /-- SRAIW: shift right arithmetic by a 5-bit amount, 32 bits (R208). -/
  | sraiw (rd rs1 : Reg) (shamt : BitVec 5)
  /-- ADDW: add, 32 bits (R209). -/
  | addw (rd rs1 rs2 : Reg)
  /-- SUBW: subtract, 32 bits (R210). -/
  | subw (rd rs1 rs2 : Reg)
  /-- SLLW: shift left logical, 32 bits (R211). -/
  | sllw (rd rs1 rs2 : Reg)
  /-- SRLW: shift right logical, 32 bits (R212). -/
  | srlw (rd rs1 rs2 : Reg)
  /-- SRAW: shift right arithmetic, 32 bits (R213). -/
  | sraw (rd rs1 rs2 : Reg)
deriving DecidableEq, Repr

end Sys2Proof
end

