-- ==== Sys2Proof/WellFormed.lean ====
section
/-! DEFINITION. Which terms of `Instr` are instructions of the hardware. Register indices, immediates
and shift amounts are bounded by their types; what the types leave open is the low bit of the two
offsets the encoding cannot express: the B and J immediates are always even, "low bit implicitly 0"
(`30_encoding.md` R75, R77). -/

namespace Sys2Proof

/-- Bit 0 of an assembled offset is 0 (R75, R77). -/
def evenOffset (n : Nat) (imm : BitVec n) : Bool := !imm.getLsbD 0

/-- The check: a branch offset and a JAL offset are even; every other operand is bounded by its type. -/
def Instr.wellFormed (i : Instr) : Bool :=
  match i with
  | .lui _ _ => true
  | .auipc _ _ => true
  | .jal _ imm => evenOffset 21 imm
  | .jalr _ _ _ => true
  | .beq _ _ imm => evenOffset 13 imm
  | .bne _ _ imm => evenOffset 13 imm
  | .blt _ _ imm => evenOffset 13 imm
  | .bge _ _ imm => evenOffset 13 imm
  | .bltu _ _ imm => evenOffset 13 imm
  | .bgeu _ _ imm => evenOffset 13 imm
  | .lb _ _ _ => true
  | .lh _ _ _ => true
  | .lw _ _ _ => true
  | .lbu _ _ _ => true
  | .lhu _ _ _ => true
  | .lwu _ _ _ => true
  | .ld _ _ _ => true
  | .sb _ _ _ => true
  | .sh _ _ _ => true
  | .sw _ _ _ => true
  | .sd _ _ _ => true
  | .addi _ _ _ => true
  | .slti _ _ _ => true
  | .sltiu _ _ _ => true
  | .xori _ _ _ => true
  | .ori _ _ _ => true
  | .andi _ _ _ => true
  | .slli _ _ _ => true
  | .srli _ _ _ => true
  | .srai _ _ _ => true
  | .add _ _ _ => true
  | .sub _ _ _ => true
  | .sll _ _ _ => true
  | .slt _ _ _ => true
  | .sltu _ _ _ => true
  | .xor _ _ _ => true
  | .srl _ _ _ => true
  | .sra _ _ _ => true
  | .or _ _ _ => true
  | .and _ _ _ => true
  | .ecall => true
  | .ebreak => true
  | .addiw _ _ _ => true
  | .slliw _ _ _ => true
  | .srliw _ _ _ => true
  | .sraiw _ _ _ => true
  | .addw _ _ _ => true
  | .subw _ _ _ => true
  | .sllw _ _ _ => true
  | .srlw _ _ _ => true
  | .sraw _ _ _ => true

end Sys2Proof
end

