-- ==== Sys2Proof/Decode.lean ====
section
/-! DEFINITION. Decoding and encoding, written from `30_encoding.md`: the field slices (R71), the
immediates of the formats (R73 to R79), the dispatch in the order R83 gives (opcode, then funct3, then
mode or the 12-bit upper field), total on every word and rejecting by name (R86, R88), on bytes the
little-endian word (R70), and after it the encoder from the same tables and each row's match and mask. -/

namespace Sys2Proof

/-! ## Fields (R71) -/

/-- word[6:0], "selects top-level dispatch". -/
def opcodeOf (w : InstrWord) : BitVec 7 := w.extractLsb' 0 7

/-- word[11:7], the destination register index. -/
def rdOf (w : InstrWord) : Reg := (w.extractLsb' 7 5).toFin

/-- word[14:12], the secondary selector. -/
def funct3Of (w : InstrWord) : BitVec 3 := w.extractLsb' 12 3

/-- word[19:15], the first source register index. -/
def rs1Of (w : InstrWord) : Reg := (w.extractLsb' 15 5).toFin

/-- word[24:20], the second source register index. -/
def rs2Of (w : InstrWord) : Reg := (w.extractLsb' 20 5).toFin

/-- word[31:25]: funct7 of the R format, and the mode of opcodes 0110011, 0111011 and 0011011 (R79, R80). -/
def funct7Of (w : InstrWord) : BitVec 7 := w.extractLsb' 25 7

/-- word[31:26]: the mode of the shift-immediates of opcode 0010011 (R78, R80, C1). -/
def mode6Of (w : InstrWord) : BitVec 6 := w.extractLsb' 26 6

/-- word[31:20] read unsigned, the selector of opcode 1110011 (R82). -/
def upper12Of (w : InstrWord) : BitVec 12 := w.extractLsb' 20 12

/-! ## Immediates, at the width their format gives them -/

/-- I format: word[31:20] (R73). -/
def immI (w : InstrWord) : BitVec 12 := w.extractLsb' 20 12

/-- S format: word[31:25] : word[11:7], "high part then low part concatenated" (R74). -/
def immS (w : InstrWord) : BitVec 12 := (w.extractLsb' 25 7 ++ w.extractLsb' 7 5 : BitVec 12)

/-- B format: word[31] : word[7] : word[30:25] : word[11:8] : 0 (R75). -/
def immB (w : InstrWord) : BitVec 13 :=
  (w.extractLsb' 31 1 ++ w.extractLsb' 7 1 ++ w.extractLsb' 25 6 ++ w.extractLsb' 8 4 ++ 0#1 : BitVec 13)

/-- U format: the 20-bit field word[31:12] (R76). -/
def immU (w : InstrWord) : BitVec 20 := w.extractLsb' 12 20

/-- J format: word[31] : word[19:12] : word[20] : word[30:21] : 0 (R77). -/
def immJ (w : InstrWord) : BitVec 21 :=
  (w.extractLsb' 31 1 ++ w.extractLsb' 12 8 ++ w.extractLsb' 20 1 ++ w.extractLsb' 21 10 ++ 0#1 : BitVec 21)

/-- word[25:20], the amount of the 64-bit shift-immediates (R78). -/
def shamt6Of (w : InstrWord) : BitVec 6 := w.extractLsb' 20 6

/-- word[24:20], the amount of the word-width shift-immediates (R79). -/
def shamt5Of (w : InstrWord) : BitVec 5 := w.extractLsb' 20 5

/-! ## Dispatch (R83, R84) -/

/-- Why a decode gives no instruction. -/
inductive DecodeError where
  /-- The word is in no row of R84: the exit `InvalidOpcode(word)` carries it whole (R86, R88, R112, D30). -/
  | invalidOpcode (word : InstrWord)
  /-- Fewer than four bytes were given; only a caller of the byte decoder can cause it, a fetch reads four (R70). -/
  | truncated
deriving DecidableEq, Repr

/-- What decoding a word answers: one of the 51 instructions or `InvalidOpcode(word)` (R83). -/
abbrev Decoded := Except DecodeError Instr

/-- Opcode 1100111 (R84 row 4): funct3 must be 000 (D11). -/
def decodeJalr (w : InstrWord) : Decoded :=
  match funct3Of w with
  | 0b000#3 => .ok (.jalr (rdOf w) (rs1Of w) (immI w))
  | _ => .error (.invalidOpcode w)

/-- Opcode 1100011 (R84 rows 5 to 10); funct3 010 and 011 are not listed (R86). -/
def decodeBranch (w : InstrWord) : Decoded :=
  match funct3Of w with
  | 0b000#3 => .ok (.beq (rs1Of w) (rs2Of w) (immB w))
  | 0b001#3 => .ok (.bne (rs1Of w) (rs2Of w) (immB w))
  | 0b100#3 => .ok (.blt (rs1Of w) (rs2Of w) (immB w))
  | 0b101#3 => .ok (.bge (rs1Of w) (rs2Of w) (immB w))
  | 0b110#3 => .ok (.bltu (rs1Of w) (rs2Of w) (immB w))
  | 0b111#3 => .ok (.bgeu (rs1Of w) (rs2Of w) (immB w))
  | _ => .error (.invalidOpcode w)

/-- Opcode 0000011 (R84 rows 11 to 17); funct3 111 is not listed (R86). -/
def decodeLoad (w : InstrWord) : Decoded :=
  match funct3Of w with
  | 0b000#3 => .ok (.lb (rdOf w) (rs1Of w) (immI w))
  | 0b001#3 => .ok (.lh (rdOf w) (rs1Of w) (immI w))
  | 0b010#3 => .ok (.lw (rdOf w) (rs1Of w) (immI w))
  | 0b011#3 => .ok (.ld (rdOf w) (rs1Of w) (immI w))
  | 0b100#3 => .ok (.lbu (rdOf w) (rs1Of w) (immI w))
  | 0b101#3 => .ok (.lhu (rdOf w) (rs1Of w) (immI w))
  | 0b110#3 => .ok (.lwu (rdOf w) (rs1Of w) (immI w))
  | _ => .error (.invalidOpcode w)

/-- Opcode 0100011 (R84 rows 18 to 21); funct3 100 to 111 are not listed (R86). -/
def decodeStore (w : InstrWord) : Decoded :=
  match funct3Of w with
  | 0b000#3 => .ok (.sb (rs1Of w) (rs2Of w) (immS w))
  | 0b001#3 => .ok (.sh (rs1Of w) (rs2Of w) (immS w))
  | 0b010#3 => .ok (.sw (rs1Of w) (rs2Of w) (immS w))
  | 0b011#3 => .ok (.sd (rs1Of w) (rs2Of w) (immS w))
  | _ => .error (.invalidOpcode w)

/-- Opcode 0010011 (R84 rows 22 to 30): funct3 001 and 101 go to the shift-immediate sub-decoder keyed by
word[31:26]; bit 25 belongs to shamt (R87, D14, D15). -/
def decodeAluImm (w : InstrWord) : Decoded :=
  match funct3Of w with
  | 0b000#3 => .ok (.addi (rdOf w) (rs1Of w) (immI w))
  | 0b010#3 => .ok (.slti (rdOf w) (rs1Of w) (immI w))
  | 0b011#3 => .ok (.sltiu (rdOf w) (rs1Of w) (immI w))
  | 0b100#3 => .ok (.xori (rdOf w) (rs1Of w) (immI w))
  | 0b110#3 => .ok (.ori (rdOf w) (rs1Of w) (immI w))
  | 0b111#3 => .ok (.andi (rdOf w) (rs1Of w) (immI w))
  | 0b001#3 =>
    match mode6Of w with
    | 0b000000#6 => .ok (.slli (rdOf w) (rs1Of w) (shamt6Of w))
    | _ => .error (.invalidOpcode w)
  | 0b101#3 =>
    match mode6Of w with
    | 0b000000#6 => .ok (.srli (rdOf w) (rs1Of w) (shamt6Of w))
    | 0b010000#6 => .ok (.srai (rdOf w) (rs1Of w) (shamt6Of w))
    | _ => .error (.invalidOpcode w)
  | _ => .error (.invalidOpcode w)

/-- Opcode 0110011 (R84 rows 31 to 40), by the pair (funct3, funct7). -/
def decodeAluReg (w : InstrWord) : Decoded :=
  match funct3Of w, funct7Of w with
  | 0b000#3, 0b0000000#7 => .ok (.add (rdOf w) (rs1Of w) (rs2Of w))
  | 0b000#3, 0b0100000#7 => .ok (.sub (rdOf w) (rs1Of w) (rs2Of w))
  | 0b001#3, 0b0000000#7 => .ok (.sll (rdOf w) (rs1Of w) (rs2Of w))
  | 0b010#3, 0b0000000#7 => .ok (.slt (rdOf w) (rs1Of w) (rs2Of w))
  | 0b011#3, 0b0000000#7 => .ok (.sltu (rdOf w) (rs1Of w) (rs2Of w))
  | 0b100#3, 0b0000000#7 => .ok (.xor (rdOf w) (rs1Of w) (rs2Of w))
  | 0b101#3, 0b0000000#7 => .ok (.srl (rdOf w) (rs1Of w) (rs2Of w))
  | 0b101#3, 0b0100000#7 => .ok (.sra (rdOf w) (rs1Of w) (rs2Of w))
  | 0b110#3, 0b0000000#7 => .ok (.or (rdOf w) (rs1Of w) (rs2Of w))
  | 0b111#3, 0b0000000#7 => .ok (.and (rdOf w) (rs1Of w) (rs2Of w))
  | _, _ => .error (.invalidOpcode w)

/-- Opcode 1110011 (R84 rows 41 and 42), funct3 000 and the 12-bit upper field (R82); rd and rs1 are not
examined (R90, D17). -/
def decodeSystem (w : InstrWord) : Decoded :=
  match funct3Of w, upper12Of w with
  | 0b000#3, 0#12 => .ok .ecall
  | 0b000#3, 1#12 => .ok .ebreak
  | _, _ => .error (.invalidOpcode w)

/-- Opcode 0011011 (R84 rows 43 to 46): the shifts are keyed by the 7-bit mode word[31:25], so bit 25 must be 0 (R87). -/
def decodeWordImm (w : InstrWord) : Decoded :=
  match funct3Of w with
  | 0b000#3 => .ok (.addiw (rdOf w) (rs1Of w) (immI w))
  | 0b001#3 =>
    match funct7Of w with
    | 0b0000000#7 => .ok (.slliw (rdOf w) (rs1Of w) (shamt5Of w))
    | _ => .error (.invalidOpcode w)
  | 0b101#3 =>
    match funct7Of w with
    | 0b0000000#7 => .ok (.srliw (rdOf w) (rs1Of w) (shamt5Of w))
    | 0b0100000#7 => .ok (.sraiw (rdOf w) (rs1Of w) (shamt5Of w))
    | _ => .error (.invalidOpcode w)
  | _ => .error (.invalidOpcode w)

/-- Opcode 0111011 (R84 rows 47 to 51), by the pair (funct3, funct7). -/
def decodeWordReg (w : InstrWord) : Decoded :=
  match funct3Of w, funct7Of w with
  | 0b000#3, 0b0000000#7 => .ok (.addw (rdOf w) (rs1Of w) (rs2Of w))
  | 0b000#3, 0b0100000#7 => .ok (.subw (rdOf w) (rs1Of w) (rs2Of w))
  | 0b001#3, 0b0000000#7 => .ok (.sllw (rdOf w) (rs1Of w) (rs2Of w))
  | 0b101#3, 0b0000000#7 => .ok (.srlw (rdOf w) (rs1Of w) (rs2Of w))
  | 0b101#3, 0b0100000#7 => .ok (.sraw (rdOf w) (rs1Of w) (rs2Of w))
  | _, _ => .error (.invalidOpcode w)

/-- The dispatch on the twelve opcodes of R84; every other opcode value is `InvalidOpcode(word)` (R88). -/
def decodeWord (w : InstrWord) : Decoded :=
  match opcodeOf w with
  | 0b0110111#7 => .ok (.lui (rdOf w) (immU w))
  | 0b0010111#7 => .ok (.auipc (rdOf w) (immU w))
  | 0b1101111#7 => .ok (.jal (rdOf w) (immJ w))
  | 0b1100111#7 => decodeJalr w
  | 0b1100011#7 => decodeBranch w
  | 0b0000011#7 => decodeLoad w
  | 0b0100011#7 => decodeStore w
  | 0b0010011#7 => decodeAluImm w
  | 0b0110011#7 => decodeAluReg w
  | 0b1110011#7 => decodeSystem w
  | 0b0011011#7 => decodeWordImm w
  | 0b0111011#7 => decodeWordReg w
  | _ => .error (.invalidOpcode w)

/-! ## Bytes (R70, R41) -/

/-- The word that four bytes spell, the byte at the lowest address holding bits 7:0 (R70). -/
def wordOfBytes (b0 b1 b2 b3 : Byte) : InstrWord := (b3 ++ b2 ++ b1 ++ b0 : BitVec 32)

/-- The four bytes of a word, lowest address first (R70). -/
def bytesOfWord (w : InstrWord) : List Byte :=
  [w.extractLsb' 0 8, w.extractLsb' 8 8, w.extractLsb' 16 8, w.extractLsb' 24 8]

/-- Decode the instruction at the front of a list of bytes and hand back the rest: every instruction is four
bytes long (R70). Total on any bytes. -/
def decodeBytes (bs : List Byte) : Except DecodeError (Instr × List Byte) :=
  match bs with
  | b0 :: b1 :: b2 :: b3 :: rest =>
    match decodeWord (wordOfBytes b0 b1 b2 b3) with
    | .ok i => .ok (i, rest)
    | .error e => .error e
  | _ => .error .truncated

/-! ## Encoding, from the same tables -/

/-- R format (R72). -/
def encodeR (f7 : BitVec 7) (rs2 rs1 : Reg) (f3 : BitVec 3) (rd : Reg) (op : BitVec 7) : InstrWord :=
  (f7 ++ (BitVec.ofFin rs2 : BitVec 5) ++ (BitVec.ofFin rs1 : BitVec 5) ++ f3 ++ (BitVec.ofFin rd : BitVec 5) ++ op : BitVec 32)

/-- I format (R73, R82). -/
def encodeI (imm : BitVec 12) (rs1 : Reg) (f3 : BitVec 3) (rd : Reg) (op : BitVec 7) : InstrWord :=
  (imm ++ (BitVec.ofFin rs1 : BitVec 5) ++ f3 ++ (BitVec.ofFin rd : BitVec 5) ++ op : BitVec 32)

/-- S format (R74). -/
def encodeS (imm : BitVec 12) (rs2 rs1 : Reg) (f3 : BitVec 3) (op : BitVec 7) : InstrWord :=
  (imm.extractLsb' 5 7 ++ (BitVec.ofFin rs2 : BitVec 5) ++ (BitVec.ofFin rs1 : BitVec 5) ++ f3 ++ imm.extractLsb' 0 5 ++ op : BitVec 32)

/-- B format (R75); bit 0 of the offset has no place in the word. -/
def encodeB (imm : BitVec 13) (rs2 rs1 : Reg) (f3 : BitVec 3) (op : BitVec 7) : InstrWord :=
  (imm.extractLsb' 12 1 ++ imm.extractLsb' 5 6 ++ (BitVec.ofFin rs2 : BitVec 5) ++ (BitVec.ofFin rs1 : BitVec 5) ++ f3
    ++ imm.extractLsb' 1 4 ++ imm.extractLsb' 11 1 ++ op : BitVec 32)

/-- U format (R76). -/
def encodeU (imm : BitVec 20) (rd : Reg) (op : BitVec 7) : InstrWord :=
  (imm ++ (BitVec.ofFin rd : BitVec 5) ++ op : BitVec 32)

/-- J format (R77); bit 0 of the offset has no place in the word. -/
def encodeJ (imm : BitVec 21) (rd : Reg) (op : BitVec 7) : InstrWord :=
  (imm.extractLsb' 20 1 ++ imm.extractLsb' 1 10 ++ imm.extractLsb' 11 1 ++ imm.extractLsb' 12 8
    ++ (BitVec.ofFin rd : BitVec 5) ++ op : BitVec 32)

/-- Shift-immediate variant of opcode 0010011 (R78). -/
def encodeShift6 (mode : BitVec 6) (shamt : BitVec 6) (rs1 : Reg) (f3 : BitVec 3) (rd : Reg) (op : BitVec 7) : InstrWord :=
  (mode ++ shamt ++ (BitVec.ofFin rs1 : BitVec 5) ++ f3 ++ (BitVec.ofFin rd : BitVec 5) ++ op : BitVec 32)

/-- Shift-immediate variant of opcode 0011011 (R79). -/
def encodeShift5 (mode : BitVec 7) (shamt : BitVec 5) (rs1 : Reg) (f3 : BitVec 3) (rd : Reg) (op : BitVec 7) : InstrWord :=
  (mode ++ shamt ++ (BitVec.ofFin rs1 : BitVec 5) ++ f3 ++ (BitVec.ofFin rd : BitVec 5) ++ op : BitVec 32)

/-- The word of an instruction (R72 to R79, R84). ECALL and EBREAK get their canonical words 0x00000073 and
0x00100073 (R200, R201); the offset of a branch or a JAL loses its bit 0, which is 0 in a well-formed one. -/
def encode (i : Instr) : InstrWord :=
  match i with
  | .lui rd imm => encodeU imm rd 0b0110111#7
  | .auipc rd imm => encodeU imm rd 0b0010111#7
  | .jal rd imm => encodeJ imm rd 0b1101111#7
  | .jalr rd rs1 imm => encodeI imm rs1 0b000#3 rd 0b1100111#7
  | .beq rs1 rs2 imm => encodeB imm rs2 rs1 0b000#3 0b1100011#7
  | .bne rs1 rs2 imm => encodeB imm rs2 rs1 0b001#3 0b1100011#7
  | .blt rs1 rs2 imm => encodeB imm rs2 rs1 0b100#3 0b1100011#7
  | .bge rs1 rs2 imm => encodeB imm rs2 rs1 0b101#3 0b1100011#7
  | .bltu rs1 rs2 imm => encodeB imm rs2 rs1 0b110#3 0b1100011#7
  | .bgeu rs1 rs2 imm => encodeB imm rs2 rs1 0b111#3 0b1100011#7
  | .lb rd rs1 imm => encodeI imm rs1 0b000#3 rd 0b0000011#7
  | .lh rd rs1 imm => encodeI imm rs1 0b001#3 rd 0b0000011#7
  | .lw rd rs1 imm => encodeI imm rs1 0b010#3 rd 0b0000011#7
  | .lbu rd rs1 imm => encodeI imm rs1 0b100#3 rd 0b0000011#7
  | .lhu rd rs1 imm => encodeI imm rs1 0b101#3 rd 0b0000011#7
  | .lwu rd rs1 imm => encodeI imm rs1 0b110#3 rd 0b0000011#7
  | .ld rd rs1 imm => encodeI imm rs1 0b011#3 rd 0b0000011#7
  | .sb rs1 rs2 imm => encodeS imm rs2 rs1 0b000#3 0b0100011#7
  | .sh rs1 rs2 imm => encodeS imm rs2 rs1 0b001#3 0b0100011#7
  | .sw rs1 rs2 imm => encodeS imm rs2 rs1 0b010#3 0b0100011#7
  | .sd rs1 rs2 imm => encodeS imm rs2 rs1 0b011#3 0b0100011#7
  | .addi rd rs1 imm => encodeI imm rs1 0b000#3 rd 0b0010011#7
  | .slti rd rs1 imm => encodeI imm rs1 0b010#3 rd 0b0010011#7
  | .sltiu rd rs1 imm => encodeI imm rs1 0b011#3 rd 0b0010011#7
  | .xori rd rs1 imm => encodeI imm rs1 0b100#3 rd 0b0010011#7
  | .ori rd rs1 imm => encodeI imm rs1 0b110#3 rd 0b0010011#7
  | .andi rd rs1 imm => encodeI imm rs1 0b111#3 rd 0b0010011#7
  | .slli rd rs1 shamt => encodeShift6 0b000000#6 shamt rs1 0b001#3 rd 0b0010011#7
  | .srli rd rs1 shamt => encodeShift6 0b000000#6 shamt rs1 0b101#3 rd 0b0010011#7
  | .srai rd rs1 shamt => encodeShift6 0b010000#6 shamt rs1 0b101#3 rd 0b0010011#7
  | .add rd rs1 rs2 => encodeR 0b0000000#7 rs2 rs1 0b000#3 rd 0b0110011#7
  | .sub rd rs1 rs2 => encodeR 0b0100000#7 rs2 rs1 0b000#3 rd 0b0110011#7
  | .sll rd rs1 rs2 => encodeR 0b0000000#7 rs2 rs1 0b001#3 rd 0b0110011#7
  | .slt rd rs1 rs2 => encodeR 0b0000000#7 rs2 rs1 0b010#3 rd 0b0110011#7
  | .sltu rd rs1 rs2 => encodeR 0b0000000#7 rs2 rs1 0b011#3 rd 0b0110011#7
  | .xor rd rs1 rs2 => encodeR 0b0000000#7 rs2 rs1 0b100#3 rd 0b0110011#7
  | .srl rd rs1 rs2 => encodeR 0b0000000#7 rs2 rs1 0b101#3 rd 0b0110011#7
  | .sra rd rs1 rs2 => encodeR 0b0100000#7 rs2 rs1 0b101#3 rd 0b0110011#7
  | .or rd rs1 rs2 => encodeR 0b0000000#7 rs2 rs1 0b110#3 rd 0b0110011#7
  | .and rd rs1 rs2 => encodeR 0b0000000#7 rs2 rs1 0b111#3 rd 0b0110011#7
  | .ecall => encodeI 0#12 0 0b000#3 0 0b1110011#7
  | .ebreak => encodeI 1#12 0 0b000#3 0 0b1110011#7
  | .addiw rd rs1 imm => encodeI imm rs1 0b000#3 rd 0b0011011#7
  | .slliw rd rs1 shamt => encodeShift5 0b0000000#7 shamt rs1 0b001#3 rd 0b0011011#7
  | .srliw rd rs1 shamt => encodeShift5 0b0000000#7 shamt rs1 0b101#3 rd 0b0011011#7
  | .sraiw rd rs1 shamt => encodeShift5 0b0100000#7 shamt rs1 0b101#3 rd 0b0011011#7
  | .addw rd rs1 rs2 => encodeR 0b0000000#7 rs2 rs1 0b000#3 rd 0b0111011#7
  | .subw rd rs1 rs2 => encodeR 0b0100000#7 rs2 rs1 0b000#3 rd 0b0111011#7
  | .sllw rd rs1 rs2 => encodeR 0b0000000#7 rs2 rs1 0b001#3 rd 0b0111011#7
  | .srlw rd rs1 rs2 => encodeR 0b0000000#7 rs2 rs1 0b101#3 rd 0b0111011#7
  | .sraw rd rs1 rs2 => encodeR 0b0100000#7 rs2 rs1 0b101#3 rd 0b0111011#7

/-! ## The rows of `opcode_table.json` -/

/-- A row's mnemonic, mask and match: a word `w` selects the row when `w &&& mask = bits` (`INDEX.md`). -/
structure OpcodeRow where
  mnemonic : String
  mask     : InstrWord
  bits     : InstrWord
deriving DecidableEq, Repr

/-- The row of `opcode_table.json` an instruction belongs to. -/
def Instr.row (i : Instr) : OpcodeRow :=
  match i with
  | .lui _ _ => ⟨"LUI", 0x0000007F#32, 0x00000037#32⟩
  | .auipc _ _ => ⟨"AUIPC", 0x0000007F#32, 0x00000017#32⟩
  | .jal _ _ => ⟨"JAL", 0x0000007F#32, 0x0000006F#32⟩
  | .jalr _ _ _ => ⟨"JALR", 0x0000707F#32, 0x00000067#32⟩
  | .beq _ _ _ => ⟨"BEQ", 0x0000707F#32, 0x00000063#32⟩
  | .bne _ _ _ => ⟨"BNE", 0x0000707F#32, 0x00001063#32⟩
  | .blt _ _ _ => ⟨"BLT", 0x0000707F#32, 0x00004063#32⟩
  | .bge _ _ _ => ⟨"BGE", 0x0000707F#32, 0x00005063#32⟩
  | .bltu _ _ _ => ⟨"BLTU", 0x0000707F#32, 0x00006063#32⟩
  | .bgeu _ _ _ => ⟨"BGEU", 0x0000707F#32, 0x00007063#32⟩
  | .lb _ _ _ => ⟨"LB", 0x0000707F#32, 0x00000003#32⟩
  | .lh _ _ _ => ⟨"LH", 0x0000707F#32, 0x00001003#32⟩
  | .lw _ _ _ => ⟨"LW", 0x0000707F#32, 0x00002003#32⟩
  | .lbu _ _ _ => ⟨"LBU", 0x0000707F#32, 0x00004003#32⟩
  | .lhu _ _ _ => ⟨"LHU", 0x0000707F#32, 0x00005003#32⟩
  | .lwu _ _ _ => ⟨"LWU", 0x0000707F#32, 0x00006003#32⟩
  | .ld _ _ _ => ⟨"LD", 0x0000707F#32, 0x00003003#32⟩
  | .sb _ _ _ => ⟨"SB", 0x0000707F#32, 0x00000023#32⟩
  | .sh _ _ _ => ⟨"SH", 0x0000707F#32, 0x00001023#32⟩
  | .sw _ _ _ => ⟨"SW", 0x0000707F#32, 0x00002023#32⟩
  | .sd _ _ _ => ⟨"SD", 0x0000707F#32, 0x00003023#32⟩
  | .addi _ _ _ => ⟨"ADDI", 0x0000707F#32, 0x00000013#32⟩
  | .slti _ _ _ => ⟨"SLTI", 0x0000707F#32, 0x00002013#32⟩
  | .sltiu _ _ _ => ⟨"SLTIU", 0x0000707F#32, 0x00003013#32⟩
  | .xori _ _ _ => ⟨"XORI", 0x0000707F#32, 0x00004013#32⟩
  | .ori _ _ _ => ⟨"ORI", 0x0000707F#32, 0x00006013#32⟩
  | .andi _ _ _ => ⟨"ANDI", 0x0000707F#32, 0x00007013#32⟩
  | .slli _ _ _ => ⟨"SLLI", 0xFC00707F#32, 0x00001013#32⟩
  | .srli _ _ _ => ⟨"SRLI", 0xFC00707F#32, 0x00005013#32⟩
  | .srai _ _ _ => ⟨"SRAI", 0xFC00707F#32, 0x40005013#32⟩
  | .add _ _ _ => ⟨"ADD", 0xFE00707F#32, 0x00000033#32⟩
  | .sub _ _ _ => ⟨"SUB", 0xFE00707F#32, 0x40000033#32⟩
  | .sll _ _ _ => ⟨"SLL", 0xFE00707F#32, 0x00001033#32⟩
  | .slt _ _ _ => ⟨"SLT", 0xFE00707F#32, 0x00002033#32⟩
  | .sltu _ _ _ => ⟨"SLTU", 0xFE00707F#32, 0x00003033#32⟩
  | .xor _ _ _ => ⟨"XOR", 0xFE00707F#32, 0x00004033#32⟩
  | .srl _ _ _ => ⟨"SRL", 0xFE00707F#32, 0x00005033#32⟩
  | .sra _ _ _ => ⟨"SRA", 0xFE00707F#32, 0x40005033#32⟩
  | .or _ _ _ => ⟨"OR", 0xFE00707F#32, 0x00006033#32⟩
  | .and _ _ _ => ⟨"AND", 0xFE00707F#32, 0x00007033#32⟩
  | .ecall => ⟨"ECALL", 0xFFF0707F#32, 0x00000073#32⟩
  | .ebreak => ⟨"EBREAK", 0xFFF0707F#32, 0x00100073#32⟩
  | .addiw _ _ _ => ⟨"ADDIW", 0x0000707F#32, 0x0000001B#32⟩
  | .slliw _ _ _ => ⟨"SLLIW", 0xFE00707F#32, 0x0000101B#32⟩
  | .srliw _ _ _ => ⟨"SRLIW", 0xFE00707F#32, 0x0000501B#32⟩
  | .sraiw _ _ _ => ⟨"SRAIW", 0xFE00707F#32, 0x4000501B#32⟩
  | .addw _ _ _ => ⟨"ADDW", 0xFE00707F#32, 0x0000003B#32⟩
  | .subw _ _ _ => ⟨"SUBW", 0xFE00707F#32, 0x4000003B#32⟩
  | .sllw _ _ _ => ⟨"SLLW", 0xFE00707F#32, 0x0000103B#32⟩
  | .srlw _ _ _ => ⟨"SRLW", 0xFE00707F#32, 0x0000503B#32⟩
  | .sraw _ _ _ => ⟨"SRAW", 0xFE00707F#32, 0x4000503B#32⟩

/-- One instruction of each constructor, in pieces by format. -/
def Instr.samples : List Instr :=
  ([.lui 0 0, .auipc 0 0, .jal 0 0, .ecall, .ebreak] : List Instr)
    ++ [.beq 0 0 0, .bne 0 0 0, .blt 0 0 0, .bge 0 0 0, .bltu 0 0 0, .bgeu 0 0 0]
    ++ [.jalr 0 0 0, .lb 0 0 0, .lh 0 0 0, .lw 0 0 0, .lbu 0 0 0, .lhu 0 0 0, .lwu 0 0 0, .ld 0 0 0, .addi 0 0 0, .slti 0 0 0, .sltiu 0 0 0, .xori 0 0 0, .ori 0 0 0, .andi 0 0 0, .addiw 0 0 0]
    ++ [.sb 0 0 0, .sh 0 0 0, .sw 0 0 0, .sd 0 0 0]
    ++ [.slli 0 0 0, .srli 0 0 0, .srai 0 0 0, .slliw 0 0 0, .srliw 0 0 0, .sraiw 0 0 0]
    ++ [.add 0 0 0, .sub 0 0 0, .sll 0 0 0, .slt 0 0 0, .sltu 0 0 0, .xor 0 0 0, .srl 0 0 0, .sra 0 0 0, .or 0 0 0, .and 0 0 0, .addw 0 0 0, .subw 0 0 0, .sllw 0 0 0, .srlw 0 0 0, .sraw 0 0 0]

/-- The 51 rows of `opcode_table.json`. -/
def opcodeTable : List OpcodeRow := Instr.samples.map Instr.row

/-! ## The host's table words -/

/-- Lay the low `nbits` bits of `w` out as the hardware stores an instruction (four bytes, least significant
first, R70, the bits above `nbits` zero) and decode those bytes. -/
def tableWord (nbits w : Nat) : InstrWord := BitVec.ofNat 32 (w % 2 ^ nbits)

/-- The instruction the decoder reads from a table word. -/
def decodeTableWord (nbits w : Nat) : Option Instr :=
  match decodeBytes (bytesOfWord (tableWord nbits w)) with
  | .ok (i, _) => some i
  | .error _ => none

end Sys2Proof
end

