-- ==== Sys2Proof/Machine/State.lean ====
section
/-! DEFINITION. The whole state of the hardware (`10_state.md`): x1..x31, the pc and the MEM_SIZE bytes of
memory (R7, R20, R23, R26), the exit that the last step reported (`40_step_cycle.md` R120, R121), and the
loader's cursor (R29). There are no flags, no control registers, no modes, no reservation, no pending
interrupt and no hidden state (R28, R30, R31, R235, R236), so State has none. Also here: the reasons a step
stops, and the state right after reset (R32, R250). -/

namespace Sys2Proof.Machine

/-- The byte buffer (R26): its size in bytes, which never changes during a run, and its contents as a list of
(address, byte) cells in one canonical form (`Memory.wf`): addresses strictly rising, no cell holding what an
unlisted address reads as. -/
structure Memory where
  size  : Nat
  cells : List Host.Cell
deriving DecidableEq, Repr

/-- The three VM exits (R220): "a typed signal that the fetch-execute loop cannot or should not continue
without external intervention". An exit changes nothing and the core is IDLE again (R121, R226). -/
inductive VmExit where
  /-- The fetched word is in no row of the dispatch table; carries the word (R221). -/
  | invalidOpcode (word : InstrWord)
  /-- EBREAK, and nothing else (R222, R201). -/
  | notImplemented
  /-- ECALL, always, and nothing else (R223, R200). -/
  | syscall
deriving DecidableEq, Repr

/-- The state of the machine. Reset values: R32. -/
structure State where
  /-- x1..x31 (R7, R20); register i stands at index i - 1, and x0 is no storage: it reads 0 and discards writes (R21). -/
  x : Vector Word 31
  /-- The program counter (R23). -/
  pc : Word
  /-- The memory (R26). -/
  mem : Memory
  /-- What the last step reported: `none` for `stepped` (and before the first step), else the exit (R120, R121).
  DEDUCED, log entry 5: the report is an output of the step; holding it makes a step that ends in an exit a
  step with a next state. No step reads it. -/
  exit : Option VmExit
  /-- The loader's bump-allocation cursor; no step reads or writes it (R29, R253, R254). -/
  curAlloc : Word
deriving DecidableEq, Repr

/-- The state right after reset (R32, R250): pc = ENTRY, memory all zero bytes with no segment loaded, x1..x31
as X_RESET, nothing reported yet, the cursor 0 (D22). The values of the open parameters are `Config`'s
(log entries 1 to 4); `Machine/Boot.lean` builds the reset state for every choice of them. -/
def State.reset : State :=
  { x := Config.xReset
    pc := Config.entry
    mem := { size := Config.memSize, cells := [] }
    exit := none
    curAlloc := 0 }

/-- Why the machine stops. Closed: nothing else can end a run (R220). -/
inductive Fault where
  /-- `BoundsViolation(addr, n)` (R45, R224): raised by the fetch of any step and by the access of a load or a
  store whose `n` bytes from `addr` are not all inside memory, and by the loader for a segment that does not fit
  (R253). Fatal: the core is DEAD and has no further step (R120); nothing was changed. Safe: the spec itself
  ends the run here. -/
  | boundsViolation (addr : Word) (n : Nat)
deriving DecidableEq, Repr

/-- Why the model gives an instruction no meaning. -/
inductive Refusal where
  /-- An instruction with no meaning yet, by its mnemonic in `opcode_table.json`; raised by an arm of `exec` only.
  Safe: the model stops. No arm raises it in this model. -/
  | notModelled (mnemonic : String)
deriving DecidableEq, Repr

end Sys2Proof.Machine
end

