-- ==== Sys2Proof/Machine/Ops.lean ====
section
/-! DEFINITION. The named operations over registers, memory, the pc and the exit report. Every read and write
of a register goes through `readReg` and `writeReg`, every access of memory through the bounds check of R45,
every end of an instruction through `retire`, and every exit through `takeExit`. -/

namespace Sys2Proof.Machine

/-- The outcome of a step or of a meaning. -/
abbrev Result := Host.Outcome State Fault Refusal

/-! ## Registers (R20, R21, R116) -/

/-- `x[r]`: register 0 reads 0 (R21). -/
def State.readReg (s : State) (r : Reg) : Word :=
  if r = 0 then 0 else s.x[r.val - 1]'(by omega)

/-- `x[r] <- v`: a write to register 0 is discarded, never an error (R21, R116). -/
def State.writeReg (s : State) (r : Reg) (v : Word) : State :=
  if r = 0 then s else { s with x := s.x.set (r.val - 1) v (by omega) }

/-! ## The end of a step -/

/-- WRITEBACK and ADVANCE of a step that completes: the pc of the next step, and the report `stepped` (R118, R121). -/
def State.retire (s : State) (next : Word) : State := { s with pc := next, exit := none }

/-- The implicit advance: pc + 4, modulo 2^64 (R24, R118). -/
def State.nextPc (s : State) : Word := s.pc + 4

/-- `x[rd] <- v` and the implicit advance: how every instruction that only computes a register ends (R116, R118). -/
def finish (rd : Reg) (v : Word) (s : State) : Result :=
  .next ((s.writeReg rd v).retire s.nextPc)

/-- TAKING AN EXIT, the one way a step ends in `raise InvalidOpcode`, `raise NotImplemented` or `raise Syscall`:
the exit is reported, and no register, no byte of memory and not the pc changes (R220, R226); nothing is saved,
no mode changes and control goes to no guest address (R230); the core is IDLE and may be stepped again (R121). -/
def takeExit (e : VmExit) (s : State) : Result := .next { s with exit := some e }

/-- The return from an exit: there is no trap-return instruction; the host writes the pc of the next step, and
stepping goes on from there (R231, R233). -/
def State.resumeAt (s : State) (next : Word) : State := { s with pc := next, exit := none }

/-! ## Memory (R26, R40 to R45) -/

/-- What an address that no cell lists reads as: memory at construction is all zero (R251). -/
def unlistedByte : Byte := 0

/-- The byte that the cells hold at an address. -/
def readCells (cells : List Host.Cell) (a : Nat) : Byte :=
  match cells with
  | [] => unlistedByte
  | (k, v) :: rest => if a = k then v else readCells rest a

/-- A cell put before others, unless it would hold what an unlisted address reads as. -/
def consCell (a : Nat) (b : Byte) (rest : List Host.Cell) : List Host.Cell :=
  if b = unlistedByte then rest else (a, b) :: rest

/-- Write one byte, keeping the cells in rising order and free of unlisted bytes. -/
def writeCells (cells : List Host.Cell) (a : Nat) (b : Byte) : List Host.Cell :=
  match cells with
  | [] => consCell a b []
  | (k, v) :: rest =>
    if a < k then consCell a b ((k, v) :: rest)
    else if a = k then consCell a b rest
    else (k, v) :: writeCells rest a b

/-- `mem[a]`. -/
def Memory.byte (m : Memory) (a : Nat) : Byte := readCells m.cells a

/-- `mem[a] <- b`; no bounds check here. -/
def Memory.setByte (m : Memory) (a : Nat) (b : Byte) : Memory := { m with cells := writeCells m.cells a b }

/-- The `n` bytes from `a`, lowest address first. -/
def Memory.bytes (m : Memory) (a n : Nat) : List Byte :=
  match n with
  | 0 => []
  | n + 1 => m.byte a :: m.bytes (a + 1) n

/-- Write a list of bytes from `a` up. -/
def Memory.setBytes (m : Memory) (a : Nat) (bs : List Byte) : Memory :=
  match bs with
  | [] => m
  | b :: rest => (m.setByte a b).setBytes (a + 1) rest

/-- The canonical form: addresses strictly rising, no cell equal to an unlisted byte, every cell inside memory. -/
abbrev Memory.wf (m : Memory) : Prop :=
  m.cells.Pairwise (fun c d => c.1 < d.1) ∧ ∀ c ∈ m.cells, c.2 ≠ unlistedByte ∧ c.1 < m.size

/-- What every reachable state satisfies: memory in its canonical form and MEM_SIZE in the range of D1. -/
abbrev State.wf (s : State) : Prop := s.mem.wf ∧ 4 ≤ s.mem.size ∧ s.mem.size < 2 ^ 63

/-- The bounds check (R45): the whole range lies inside memory, the sum taken in unbounded integers (D7). -/
def Memory.inside (m : Memory) (addr : Word) (n : Nat) : Bool := addr.toNat + n ≤ m.size

/-- The unsigned integer that bytes spell, the first the least significant (R41, R42). -/
def leValue (bs : List Byte) : Nat :=
  match bs with
  | [] => 0
  | b :: rest => b.toNat + 256 * leValue rest

/-- The low `n` bytes of a value, the least significant first: byte i is v[8i+7 : 8i] (R43). -/
def leBytes (n : Nat) (v : Word) : List Byte :=
  match n with
  | 0 => []
  | n + 1 => v.extractLsb' 0 8 :: leBytes n (v >>> 8)

/-- `read(addr, len)` (R40): a copy of `len` bytes, or the bounds violation. -/
def Memory.read (m : Memory) (addr : Word) (len : Nat) : Except Fault (List Byte) :=
  if m.inside addr len then .ok (m.bytes addr.toNat len) else .error (.boundsViolation addr len)

/-- `write(addr, bytes)` (R40): the bytes copied in, or the bounds violation with nothing written. -/
def Memory.write (m : Memory) (addr : Word) (bs : List Byte) : Except Fault Memory :=
  if m.inside addr bs.length then .ok (m.setBytes addr.toNat bs) else .error (.boundsViolation addr bs.length)

/-- `MemRead(addr, n)` (R42): the unsigned integer of the `n` bytes, little-endian; no alignment requirement (R46). -/
def memRead (m : Memory) (addr : Word) (n : Nat) : Except Fault Nat :=
  match m.read addr n with
  | .ok bs => .ok (leValue bs)
  | .error f => .error f

/-- `MemWrite(addr, n, v)` (R43): the low `n` bytes of `v` stored little-endian; no alignment requirement (R46). -/
def memWrite (m : Memory) (addr : Word) (n : Nat) (v : Word) : Except Fault Memory :=
  m.write addr (leBytes n v)

/-! ## Fetch (R111) -/

/-- FETCH: `word <- MemRead(pc, 4)`, at any alignment (R47), from memory as it is at the start of the step (R55). -/
def fetchWord (s : State) : Except Fault InstrWord :=
  match memRead s.mem s.pc 4 with
  | .ok v => .ok (BitVec.ofNat 32 v)
  | .error f => .error f

end Sys2Proof.Machine
end

