-- ==== Sys2Proof/Machine/Operands.lean ====
section
/-! DEFINITION. The operand forms: each immediate extended to 64 bits (`30_encoding.md` R73 to R77, R81),
shift amounts (`40_step_cycle.md` R123), the low word of a register and the sign extension of a 32-bit
result (R124), the effective address of a load or store (`20_memory.md` R44), and the extensions of loaded
values (R48). -/

namespace Sys2Proof.Machine

/-- The I and S immediate: `sext_12` of the field (R73, R74, R81). -/
def imm12 (imm : BitVec 12) : Word := imm.signExtend 64

/-- The B offset: `sext_13` (R75). -/
def imm13 (imm : BitVec 13) : Word := imm.signExtend 64

/-- The U immediate: the 20-bit field in bits 31:12, low 12 bits zero, `sext_32` (R76, C10). -/
def imm20 (imm : BitVec 20) : Word := (imm ++ 0#12 : BitVec 32).signExtend 64

/-- The J offset: `sext_21` (R77). -/
def imm21 (imm : BitVec 21) : Word := imm.signExtend 64

/-- The amount of SLL, SRL, SRA: `x[rs2][5:0]`, the upper 58 bits ignored (R123). -/
def amount6 (v : Word) : Nat := (v.extractLsb' 0 6).toNat

/-- The amount of SLLW, SRLW, SRAW: `x[rs2][4:0]` (R123, D16). -/
def amount5 (v : Word) : Nat := (v.extractLsb' 0 5).toNat

/-- `v[31:0]`, the operand of the word-width instructions (R204). -/
def low32 (v : Word) : BitVec 32 := v.extractLsb' 0 32

/-- `sext_32(r)`, how a word-width result is written (R124). -/
def sext32 (r : BitVec 32) : Word := r.signExtend 64

/-- The address of a load or store: base register plus immediate, modulo 2^64 (R44). -/
def effectiveAddress (s : State) (rs1 : Reg) (imm : BitVec 12) : Word := s.readReg rs1 + imm12 imm

/-- `sext_N` of a value of N bits that memory gave (R48). -/
def sextLoaded (bits : Nat) (v : Nat) : Word := (BitVec.ofNat bits v).signExtend 64

/-- `zext_N` of a value of N bits that memory gave (R48). -/
def zextLoaded (bits : Nat) (v : Nat) : Word := (BitVec.ofNat bits v).zeroExtend 64

end Sys2Proof.Machine
end

