-- ==== Sys2Proof/Machine/Flags.lean ====
section
/-! DEFINITION. The hardware has no flags (`10_state.md` R28): a comparison writes 0 or 1 to a register or
decides a branch on the spot. The relations the branches and the SLT family decide by stand here
(`43_branches.md` R141 to R146; `40_step_cycle.md` R122), and the 0 or 1 they write (R171, R188). -/

namespace Sys2Proof.Machine

/-- Equality of the 64-bit patterns (R141). -/
def condEq (a b : Word) : Bool := a == b

/-- Inequality of the 64-bit patterns (R142). -/
def condNe (a b : Word) : Bool := a != b

/-- s(a) < s(b), both read as two's complement (R143, R171, R188). -/
def condLt (a b : Word) : Bool := a.slt b

/-- s(a) >= s(b) (R144). -/
def condGe (a b : Word) : Bool := !a.slt b

/-- u(a) < u(b), both read as unsigned (R145, R172, R189). -/
def condLtu (a b : Word) : Bool := a.ult b

/-- u(a) >= u(b) (R146). -/
def condGeu (a b : Word) : Bool := !a.ult b

/-- The 64-bit value 1 or 0 that a set-if-less instruction writes (R171, R172, R188, R189). -/
def boolWord (b : Bool) : Word := if b then 1 else 0

end Sys2Proof.Machine
end

