-- ==== Sys2Proof/Machine/AluImm.lean ====
section
/-! DEFINITION. The nine register-immediate instructions of opcode 0010011 (`46_alu_immediate.md` R169 to R178): read x[rs1],
write x[rd], pc + 4. -/

namespace Sys2Proof.Machine

/-- ADDI (R170: modulo 2^64). -/
def execAddi (rd rs1 : Reg) (imm : BitVec 12) (s : State) : Result :=
  finish rd (s.readReg rs1 + imm12 imm) s

/-- SLTI (R171: signed). -/
def execSlti (rd rs1 : Reg) (imm : BitVec 12) (s : State) : Result :=
  finish rd (boolWord (condLt (s.readReg rs1) (imm12 imm))) s

/-- SLTIU (R172: the sign-extended immediate read as unsigned). -/
def execSltiu (rd rs1 : Reg) (imm : BitVec 12) (s : State) : Result :=
  finish rd (boolWord (condLtu (s.readReg rs1) (imm12 imm))) s

/-- XORI (R173). -/
def execXori (rd rs1 : Reg) (imm : BitVec 12) (s : State) : Result :=
  finish rd (s.readReg rs1 ^^^ imm12 imm) s

/-- ORI (R174). -/
def execOri (rd rs1 : Reg) (imm : BitVec 12) (s : State) : Result :=
  finish rd (s.readReg rs1 ||| imm12 imm) s

/-- ANDI (R175). -/
def execAndi (rd rs1 : Reg) (imm : BitVec 12) (s : State) : Result :=
  finish rd (s.readReg rs1 &&& imm12 imm) s

/-- SLLI (R176). -/
def execSlli (rd rs1 : Reg) (shamt : BitVec 6) (s : State) : Result :=
  finish rd (s.readReg rs1 <<< shamt.toNat) s

/-- SRLI (R177). -/
def execSrli (rd rs1 : Reg) (shamt : BitVec 6) (s : State) : Result :=
  finish rd (s.readReg rs1 >>> shamt.toNat) s

/-- SRAI (R178). -/
def execSrai (rd rs1 : Reg) (shamt : BitVec 6) (s : State) : Result :=
  finish rd ((s.readReg rs1).sshiftRight shamt.toNat) s


end Sys2Proof.Machine
end

