-- ==== Sys2Proof/Machine/AluReg.lean ====
section
/-! DEFINITION. The ten register-register instructions of opcode 0110011 (`47_alu_register.md` R184 to R194): read x[rs1]
and x[rs2] as they were before the step, write x[rd], pc + 4. -/

namespace Sys2Proof.Machine

/-- ADD (R185: modulo 2^64). -/
def execAdd (rd rs1 rs2 : Reg) (s : State) : Result :=
  finish rd (s.readReg rs1 + s.readReg rs2) s

/-- SUB (R186: modulo 2^64). -/
def execSub (rd rs1 rs2 : Reg) (s : State) : Result :=
  finish rd (s.readReg rs1 - s.readReg rs2) s

/-- SLL (R187). -/
def execSll (rd rs1 rs2 : Reg) (s : State) : Result :=
  finish rd (s.readReg rs1 <<< amount6 (s.readReg rs2)) s

/-- SLT (R188). -/
def execSlt (rd rs1 rs2 : Reg) (s : State) : Result :=
  finish rd (boolWord (condLt (s.readReg rs1) (s.readReg rs2))) s

/-- SLTU (R189). -/
def execSltu (rd rs1 rs2 : Reg) (s : State) : Result :=
  finish rd (boolWord (condLtu (s.readReg rs1) (s.readReg rs2))) s

/-- XOR (R190). -/
def execXor (rd rs1 rs2 : Reg) (s : State) : Result :=
  finish rd (s.readReg rs1 ^^^ s.readReg rs2) s

/-- SRL (R191). -/
def execSrl (rd rs1 rs2 : Reg) (s : State) : Result :=
  finish rd (s.readReg rs1 >>> amount6 (s.readReg rs2)) s

/-- SRA (R192). -/
def execSra (rd rs1 rs2 : Reg) (s : State) : Result :=
  finish rd ((s.readReg rs1).sshiftRight (amount6 (s.readReg rs2))) s

/-- OR (R193). -/
def execOr (rd rs1 rs2 : Reg) (s : State) : Result :=
  finish rd (s.readReg rs1 ||| s.readReg rs2) s

/-- AND (R194). -/
def execAnd (rd rs1 rs2 : Reg) (s : State) : Result :=
  finish rd (s.readReg rs1 &&& s.readReg rs2) s


end Sys2Proof.Machine
end

