-- ==== Sys2Proof/Machine/Branches.lean ====
section
/-! DEFINITION. The six conditional branches (`43_branches.md` R140 to R146). -/

namespace Sys2Proof.Machine

/-- Common to the six (R140): compare x[rs1] with x[rs2] (C4), go to pc + imm where the relation holds, to pc + 4
where it does not. No register is written, and the target is not checked (R47). -/
def branch (cond : Word → Word → Bool) (rs1 rs2 : Reg) (imm : BitVec 13) (s : State) : Result :=
  .next (s.retire (if cond (s.readReg rs1) (s.readReg rs2) then s.pc + imm13 imm else s.nextPc))

/-- BEQ (R141). -/
def execBeq (rs1 rs2 : Reg) (imm : BitVec 13) (s : State) : Result :=
  branch condEq rs1 rs2 imm s

/-- BNE (R142). -/
def execBne (rs1 rs2 : Reg) (imm : BitVec 13) (s : State) : Result :=
  branch condNe rs1 rs2 imm s

/-- BLT (R143). -/
def execBlt (rs1 rs2 : Reg) (imm : BitVec 13) (s : State) : Result :=
  branch condLt rs1 rs2 imm s

/-- BGE (R144). -/
def execBge (rs1 rs2 : Reg) (imm : BitVec 13) (s : State) : Result :=
  branch condGe rs1 rs2 imm s

/-- BLTU (R145). -/
def execBltu (rs1 rs2 : Reg) (imm : BitVec 13) (s : State) : Result :=
  branch condLtu rs1 rs2 imm s

/-- BGEU (R146). -/
def execBgeu (rs1 rs2 : Reg) (imm : BitVec 13) (s : State) : Result :=
  branch condGeu rs1 rs2 imm s


end Sys2Proof.Machine
end

