-- ==== Sys2Proof/Machine/Jumps.lean ====
section
/-! DEFINITION. JAL and JALR (`42_jumps.md` R135, R136): the link is pc + 4, the target is checked for nothing (R47), and
the base of JALR is read before rd is written (D13). Bit 0 of a JALR target is not cleared (D12). -/

namespace Sys2Proof.Machine

/-- `x[rd] <- pc + 4; pc <- target` (R135, R136): the target was computed from the state before the step. -/
def linkAndJump (rd : Reg) (target : Word) (s : State) : Result :=
  .next ((s.writeReg rd s.nextPc).retire target)

/-- JAL (R135: the target is pc + imm). -/
def execJal (rd : Reg) (imm : BitVec 21) (s : State) : Result :=
  linkAndJump rd (s.pc + imm21 imm) s

/-- JALR (R136: the target is the old x[rs1] + imm). -/
def execJalr (rd rs1 : Reg) (imm : BitVec 12) (s : State) : Result :=
  linkAndJump rd (s.readReg rs1 + imm12 imm) s


end Sys2Proof.Machine
end

