-- ==== Sys2Proof/Machine/Loads.lean ====
section
/-! DEFINITION. The seven loads (`44_loads.md` R150 to R157). -/

namespace Sys2Proof.Machine

/-- Common to the seven (R150): read `n` bytes at x[rs1] + imm, extend, write rd, go to pc + 4. The read is made
when rd is 0 too (D24), and a bounds violation comes before the write. -/
def load (n : Nat) (ext : Nat → Word) (rd rs1 : Reg) (imm : BitVec 12) (s : State) : Result :=
  match memRead s.mem (effectiveAddress s rs1 imm) n with
  | .ok v => finish rd (ext v) s
  | .error f => .fault f

/-- LB (R151). -/
def execLb (rd rs1 : Reg) (imm : BitVec 12) (s : State) : Result :=
  load 1 (sextLoaded 8) rd rs1 imm s

/-- LH (R152). -/
def execLh (rd rs1 : Reg) (imm : BitVec 12) (s : State) : Result :=
  load 2 (sextLoaded 16) rd rs1 imm s

/-- LW (R153). -/
def execLw (rd rs1 : Reg) (imm : BitVec 12) (s : State) : Result :=
  load 4 (sextLoaded 32) rd rs1 imm s

/-- LBU (R154). -/
def execLbu (rd rs1 : Reg) (imm : BitVec 12) (s : State) : Result :=
  load 1 (zextLoaded 8) rd rs1 imm s

/-- LHU (R155). -/
def execLhu (rd rs1 : Reg) (imm : BitVec 12) (s : State) : Result :=
  load 2 (zextLoaded 16) rd rs1 imm s

/-- LWU (R156). -/
def execLwu (rd rs1 : Reg) (imm : BitVec 12) (s : State) : Result :=
  load 4 (zextLoaded 32) rd rs1 imm s

/-- LD (R157, C9: all 64 bits, nothing to extend). -/
def execLd (rd rs1 : Reg) (imm : BitVec 12) (s : State) : Result :=
  load 8 (zextLoaded 64) rd rs1 imm s


end Sys2Proof.Machine
end

