-- ==== Sys2Proof/Machine/Stores.lean ====
section
/-! DEFINITION. The four stores (`45_stores.md` R160 to R164). -/

namespace Sys2Proof.Machine

/-- Common to the four (R160): write the low `n` bytes of x[rs2] at x[rs1] + imm, go to pc + 4. A bounds violation
comes before any byte is written. -/
def store (n : Nat) (rs1 rs2 : Reg) (imm : BitVec 12) (s : State) : Result :=
  match memWrite s.mem (effectiveAddress s rs1 imm) n (s.readReg rs2) with
  | .ok m => .next (State.retire { s with mem := m } s.nextPc)
  | .error f => .fault f

/-- SB (R161). -/
def execSb (rs1 rs2 : Reg) (imm : BitVec 12) (s : State) : Result :=
  store 1 rs1 rs2 imm s

/-- SH (R162). -/
def execSh (rs1 rs2 : Reg) (imm : BitVec 12) (s : State) : Result :=
  store 2 rs1 rs2 imm s

/-- SW (R163). -/
def execSw (rs1 rs2 : Reg) (imm : BitVec 12) (s : State) : Result :=
  store 4 rs1 rs2 imm s

/-- SD (R164). -/
def execSd (rs1 rs2 : Reg) (imm : BitVec 12) (s : State) : Result :=
  store 8 rs1 rs2 imm s


end Sys2Proof.Machine
end

