-- ==== Sys2Proof/Machine/System.lean ====
section
/-! DEFINITION. ECALL and EBREAK (`48_system.md` R200, R201): their whole effect is the exit they raise. -/

namespace Sys2Proof.Machine

/-- ECALL (R200): `raise Syscall`, always; the pc stays on the ECALL. -/
def execEcall (s : State) : Result := takeExit .syscall s

/-- EBREAK (R201, D18): `raise NotImplemented`, always; there is no debugger hook. -/
def execEbreak (s : State) : Result := takeExit .notImplemented s

end Sys2Proof.Machine
end

