-- ==== Sys2Proof/Machine/Upper.lean ====
section
/-! DEFINITION. LUI and AUIPC (`41_upper_immediate.md` R130, R131): they read no register, touch no memory and end with
pc + 4. -/

namespace Sys2Proof.Machine

/-- LUI (R130: x[rd] <- imm). -/
def execLui (rd : Reg) (imm : BitVec 20) (s : State) : Result :=
  finish rd (imm20 imm) s

/-- AUIPC (R131: x[rd] <- pc + imm, pc the address of this AUIPC). -/
def execAuipc (rd : Reg) (imm : BitVec 20) (s : State) : Result :=
  finish rd (s.pc + imm20 imm) s


end Sys2Proof.Machine
end

