-- ==== Sys2Proof/Machine/WordOps.lean ====
section
/-! DEFINITION. The nine word-width instructions of opcodes 0011011 and 0111011 (`49_word_ops.md` R204 to R213): a 32-bit
result from the low 32 bits of the operands, sign-extended into rd, pc + 4. -/

namespace Sys2Proof.Machine

/-- Common to the nine (R204, R124): write `sext_32` of a 32-bit result. -/
def finishWord (rd : Reg) (r : BitVec 32) (s : State) : Result := finish rd (sext32 r) s

/-- ADDIW (R205: a32 +32 imm[31:0]). -/
def execAddiw (rd rs1 : Reg) (imm : BitVec 12) (s : State) : Result :=
  finishWord rd (low32 (s.readReg rs1) + low32 (imm12 imm)) s

/-- SLLIW (R206). -/
def execSlliw (rd rs1 : Reg) (shamt : BitVec 5) (s : State) : Result :=
  finishWord rd (low32 (s.readReg rs1) <<< shamt.toNat) s

/-- SRLIW (R207). -/
def execSrliw (rd rs1 : Reg) (shamt : BitVec 5) (s : State) : Result :=
  finishWord rd (low32 (s.readReg rs1) >>> shamt.toNat) s

/-- SRAIW (R208). -/
def execSraiw (rd rs1 : Reg) (shamt : BitVec 5) (s : State) : Result :=
  finishWord rd ((low32 (s.readReg rs1)).sshiftRight shamt.toNat) s

/-- ADDW (R209). -/
def execAddw (rd rs1 rs2 : Reg) (s : State) : Result :=
  finishWord rd (low32 (s.readReg rs1) + low32 (s.readReg rs2)) s

/-- SUBW (R210). -/
def execSubw (rd rs1 rs2 : Reg) (s : State) : Result :=
  finishWord rd (low32 (s.readReg rs1) - low32 (s.readReg rs2)) s

/-- SLLW (R211). -/
def execSllw (rd rs1 rs2 : Reg) (s : State) : Result :=
  finishWord rd (low32 (s.readReg rs1) <<< amount5 (s.readReg rs2)) s

/-- SRLW (R212). -/
def execSrlw (rd rs1 rs2 : Reg) (s : State) : Result :=
  finishWord rd (low32 (s.readReg rs1) >>> amount5 (s.readReg rs2)) s

/-- SRAW (R213). -/
def execSraw (rd rs1 rs2 : Reg) (s : State) : Result :=
  finishWord rd ((low32 (s.readReg rs1)).sshiftRight (amount5 (s.readReg rs2))) s


end Sys2Proof.Machine
end

