-- ==== Sys2Proof/Machine/Step.lean ====
section
/-! DEFINITION. One step (`40_step_cycle.md` R110 to R118): FETCH, DECODE, then the instruction's execute arm, which
ends with WRITEBACK and ADVANCE, or with the exit or the fatal fault it raises. -/

namespace Sys2Proof.Machine

/-- One step, a function of the state (R110). A fetch outside memory is the fatal bounds violation before
anything is decoded (R111, R229); a word in no row of the dispatch table is the exit `InvalidOpcode(word)`
(R112, R221). -/
def step (s : State) : Host.Outcome State Fault Refusal :=
  match fetchWord s with
  | .error f => .fault f
  | .ok w =>
    match decodeWord w with
    | .ok i => exec i s
    | .error _ => takeExit (.invalidOpcode w) s

/-- The state with a table word stored at the pc, where `step` fetches, little-endian (R70, R111). It stands for
the loading of a program from outside the machine (R252; log entry 4). Where the four bytes at the pc are not
all inside memory nothing can be fetched there, and the state is left as it is. -/
def State.withFetchWord (s : State) (nbits w : Nat) : State :=
  match s.mem.write s.pc (bytesOfWord (tableWord nbits w)) with
  | .ok m => { s with mem := m }
  | .error _ => s

end Sys2Proof.Machine
end

