-- ==== Sys2Proof/Machine/Boot.lean ====
section
/-! DEFINITION. Reset is construction (`70_reset_and_hazards.md` R250 to R254): memory of MEM_SIZE zero bytes, the
segments of IMAGE in order, then the registers with pc = ENTRY; and the loader's allocator. All of it happens
before the first step and none of it is an instruction. -/

namespace Sys2Proof.Machine

/-- Memory at construction: MEM_SIZE bytes, all zero (R251). -/
def Memory.blank (size : Nat) : Memory := { size := size, cells := [] }

/-- The registers and the pc as they are created (R32, R250): x1..x31 = X_RESET, pc = ENTRY, nothing reported, over
memory with no segment loaded and the cursor at 0 (D22). -/
def construct (p : Params) : State :=
  { x := p.xReset, pc := p.entry, mem := Memory.blank p.memSize, exit := none, curAlloc := 0 }

/-- The larger of two addresses read as unsigned. -/
def maxAddr (a b : Word) : Word := if a.toNat < b.toNat then b else a

/-- `load_segment` (R253): a segment at address 0 is skipped; otherwise its bytes are written under the bounds
contract and the cursor moves up to its end. -/
def loadSegment (s : State) (g : Segment) : Except Fault State :=
  if g.loadAddr = 0 then .ok s
  else
    match s.mem.write g.loadAddr g.payload with
    | .ok m =>
      .ok { s with mem := m, curAlloc := maxAddr s.curAlloc (g.loadAddr + BitVec.ofNat 64 g.payload.length) }
    | .error f => .error f

/-- The segments applied in the order the collaborator provides them (R252, R253, D29). -/
def loadImage (s : State) (gs : List Segment) : Except Fault State :=
  match gs with
  | [] => .ok s
  | g :: rest =>
    match loadSegment s g with
    | .ok s' => loadImage s' rest
    | .error f => .error f

/-- The boot of R252: construct, load IMAGE, start at ENTRY. A segment that does not fit is a bounds violation at
load time and the run never starts (R253). -/
def boot (p : Params) : Except Fault State := loadImage (construct p) p.image

/-- `alloc(size)` (R254): answers the cursor and advances it; writes no memory and checks nothing. -/
def alloc (s : State) (size : Word) : Word × State := (s.curAlloc, { s with curAlloc := s.curAlloc + size })

end Sys2Proof.Machine
end

