-- ==== Sys2Proof/Machine/HostPort.lean ====
section
/-! DEFINITION. What the host may do between steps (`60_exceptions.md` R231 to R234), as operations of their own: no
step performs one of them. The host reads every register with `State.readReg`, every byte with `Memory.read`,
writes registers with `State.writeReg` (a write to x0 is discarded), and resumes with `State.resumeAt`. -/

namespace Sys2Proof.Machine

/-- A host write of the pc (R232). -/
def State.hostWritePc (s : State) (v : Word) : State := { s with pc := v }

/-- A host write of memory, under the same bounds contract as the core's (R232, R45). -/
def State.hostWriteMem (s : State) (addr : Word) (bs : List Byte) : Except Fault State :=
  match s.mem.write addr bs with
  | .ok m => .ok { s with mem := m }
  | .error f => .error f

/-- Resuming past an ECALL: the host writes pc + 4 before the next step (R233, D27). -/
def State.resumePastSyscall (s : State) : State := s.resumeAt s.nextPc

/-- How a driver's run ended. -/
inductive DriverEnd where
  /-- The first exit, with the state it left (R121, R234). -/
  | exited (e : VmExit) (s : State)
  /-- The fatal fault: no further step exists (R224). -/
  | dead (f : Fault)
  /-- The caller's bound on the number of steps was reached; the core itself never stops (R121). -/
  | outOfFuel (s : State)
  /-- The model refused an instruction; it has no such instruction. -/
  | refused (r : Refusal)
deriving DecidableEq, Repr

/-- The minimal driver (R121, R234): step until the first exit of any kind, at most `k` steps. -/
def drive (k : Nat) (s : State) : DriverEnd :=
  match k with
  | 0 => .outOfFuel s
  | k + 1 =>
    match step s with
    | .fault f => .dead f
    | .refused r => .refused r
    | .next t =>
      match t.exit with
      | some e => .exited e t
      | none => drive k t

end Sys2Proof.Machine
end

