-- ==== Sys2Proof/Safety.lean ====
section
/-! DEFINITION. What counts as a safe step and a safe run. In the spec's words (`00_scope.md` R8):
`InvalidOpcode` and `NotImplemented` are faults that stop the run unless the host chooses otherwise, `Syscall`
is a hand-over to the host, `BoundsViolation` is a fault that is never final and never resumed. -/

namespace Sys2Proof.Safety

open Sys2Proof.Machine

/-- An exit that a program is expected to recover from: `Syscall` only (R223). -/
def expectedExit (e : Option VmExit) : Bool :=
  match e with
  | none => true
  | some .syscall => true
  | some .notImplemented => false
  | some (.invalidOpcode _) => false

/-- A step is safe when it has a next state and reports `stepped` or `Syscall` (R8). -/
def safeStep (s : State) : Bool :=
  match step s with
  | .next t => expectedExit t.exit
  | .fault _ => false
  | .refused _ => false

/-- The first `k` steps are safe, the run ending early at a `Syscall` (R8, R234). -/
def safeFor (k : Nat) (s : State) : Bool :=
  match k with
  | 0 => true
  | k + 1 =>
    match step s with
    | .fault _ => false
    | .refused _ => false
    | .next t => expectedExit t.exit && (t.exit.isSome || safeFor k t)

end Sys2Proof.Safety
end

