-- ==== Sys2Proof/Certificates/Slice0/Obligations.lean ====
section
/-! DEFINITION. The statements for the provers. First the words they are written in (`Sys2Proof.Claims`), each said by
arithmetic on integers and not by the model's own operations wherever the spec gives the arithmetic; then one
`def Obligations.<Name> : Prop` for each statement, its docstring naming the rules of spec/ it formalises. -/

namespace Sys2Proof.Claims

open Sys2Proof.Machine

/-- `w[hi:lo]` as an unsigned integer (`00_scope.md` section 5). -/
def slice (w : InstrWord) (hi lo : Nat) : Nat := w.toNat / 2 ^ lo % 2 ^ (hi + 1 - lo)

/-- The two's complement reading of an unsigned integer of `bits` bits. -/
def signed (bits n : Nat) : Int := if n < 2 ^ (bits - 1) then n else (n : Int) - 2 ^ bits

/-- The sum of R42: the byte at the lowest address is the least significant. -/
def leSum (m : Memory) (a n : Nat) : Nat := ∑ i ∈ Finset.range n, (m.byte (a + i)).toNat * 2 ^ (8 * i)

/-- Every register reads as before. -/
def SameRegs (s t : State) : Prop := ∀ r, t.readReg r = s.readReg r

/-- Every byte of memory reads as before, and there are as many. -/
def SameMemory (s t : State) : Prop := t.mem.size = s.mem.size ∧ ∀ a, t.mem.byte a = s.mem.byte a

/-- rd holds v, unless rd is x0, which still reads 0; every other register reads as before (R21). -/
def WritesReg (s t : State) (rd : Reg) (v : Word) : Prop :=
  ∀ r, t.readReg r = if r = rd ∧ rd ≠ 0 then v else s.readReg r

/-- The step reports `stepped` (R121; that the report is a field of State is log entry 5), and the loader's cursor is
as before. -/
def Stepped (s t : State) : Prop := t.exit = none ∧ t.curAlloc = s.curAlloc

/-- Registers, pc, memory and cursor are as before. -/
def Unchanged (s t : State) : Prop := SameRegs s t ∧ SameMemory s t ∧ t.pc = s.pc ∧ t.curAlloc = s.curAlloc

/-- Every word of the row (mask, bits) decodes as `mk` says. -/
def Selects (mask bits : InstrWord) (mk : InstrWord → Instr) : Prop :=
  ∀ w : InstrWord, w &&& mask = bits → decodeWord w = .ok (mk w)

/-- `i` completes from every state: rd gets the value that `P` describes, the pc advances by 4, nothing else changes. -/
def Computes (i : Instr) (rd : Reg) (P : State → Word → Prop) : Prop :=
  ∀ s, ∃ t v, exec i s = .next t ∧ P s v ∧ WritesReg s t rd v ∧ t.pc = s.pc + 4 ∧ Stepped s t ∧ SameMemory s t

/-- `i` completes from every state: rd gets pc + 4, the pc becomes `target` modulo 2^64, nothing else changes. -/
def Jumps (i : Instr) (rd : Reg) (target : State → Int) : Prop :=
  ∀ s, ∃ t, exec i s = .next t ∧ WritesReg s t rd (s.pc + 4) ∧ (t.pc.toNat : Int) = target s % 2 ^ 64
    ∧ Stepped s t ∧ SameMemory s t

/-- `i` completes from every state: the pc becomes pc + imm modulo 2^64 where the relation holds between the two
sources, pc + 4 where it does not, nothing else changes. -/
def Branches (i : Instr) (rs1 rs2 : Reg) (imm : BitVec 13) (rel : Word → Word → Prop) : Prop :=
  ∀ s, ∃ t, exec i s = .next t ∧ SameRegs s t ∧ SameMemory s t ∧ Stepped s t
    ∧ (rel (s.readReg rs1) (s.readReg rs2) → (t.pc.toNat : Int) = (s.pc.toNat + imm.toInt) % 2 ^ 64)
    ∧ (¬ rel (s.readReg rs1) (s.readReg rs2) → t.pc = s.pc + 4)

/-- `i` reads `n` bytes at x[rs1] + imm: where they are inside memory it completes, rd gets the value that `P`
describes of their little-endian sum, the pc advances by 4, nothing else changes; where they are not, it is the
bounds violation of that address and width. -/
def Loads (i : Instr) (rd rs1 : Reg) (imm : BitVec 12) (n : Nat) (P : Nat → Word → Prop) : Prop :=
  ∀ s, ((effectiveAddress s rs1 imm).toNat + n ≤ s.mem.size →
      ∃ t v, exec i s = .next t ∧ P (leSum s.mem (effectiveAddress s rs1 imm).toNat n) v ∧ WritesReg s t rd v
        ∧ t.pc = s.pc + 4 ∧ Stepped s t ∧ SameMemory s t)
    ∧ (s.mem.size < (effectiveAddress s rs1 imm).toNat + n →
      exec i s = .fault (.boundsViolation (effectiveAddress s rs1 imm) n))

/-- After a store of the low `n` bytes of `v` at `addr`: those bytes hold v[8k+7 : 8k], every other byte is as before. -/
def StoredAt (m m' : Memory) (addr n : Nat) (v : Word) : Prop :=
  m'.size = m.size ∧ ∀ a, (m'.byte a).toNat =
    if addr ≤ a ∧ a < addr + n then v.toNat / 2 ^ (8 * (a - addr)) % 256 else (m.byte a).toNat

/-- `i` stores the low `n` bytes of x[rs2] at x[rs1] + imm: where they are inside memory it completes, exactly
those bytes change, the pc advances by 4, no register changes; where they are not, it is the bounds violation
of that address and width. Memory is taken in its canonical form, which every step keeps. -/
def Stores (i : Instr) (rs1 rs2 : Reg) (imm : BitVec 12) (n : Nat) : Prop :=
  ∀ s : State, s.wf → ((effectiveAddress s rs1 imm).toNat + n ≤ s.mem.size →
      ∃ t, exec i s = .next t ∧ StoredAt s.mem t.mem (effectiveAddress s rs1 imm).toNat n (s.readReg rs2)
        ∧ SameRegs s t ∧ t.pc = s.pc + 4 ∧ Stepped s t)
    ∧ (s.mem.size < (effectiveAddress s rs1 imm).toNat + n →
      exec i s = .fault (.boundsViolation (effectiveAddress s rs1 imm) n))

/-- `i` takes the exit `e` from every state and changes nothing else; executed again it takes it again. -/
def Exits (i : Instr) (e : VmExit) : Prop :=
  ∀ s, ∃ t, exec i s = .next t ∧ t.exit = some e ∧ Unchanged s t ∧ exec i t = .next t

/-- `k` steps from `s`, each of which reports `stepped`, lead to `u`. -/
def RunsTo (k : Nat) (s u : State) : Prop :=
  match k with
  | 0 => u = s
  | k + 1 => ∃ t, step s = .next t ∧ t.exit = none ∧ RunsTo k t u

/-- The register an instruction writes, by its format (R25). -/
def destination (i : Instr) : Option Reg :=
  match i with
  | .lui rd _ | .auipc rd _ | .jal rd _ | .jalr rd _ _ => some rd
  | .lb rd _ _ | .lh rd _ _ | .lw rd _ _ | .lbu rd _ _ | .lhu rd _ _ | .lwu rd _ _ | .ld rd _ _ => some rd
  | .addi rd _ _ | .slti rd _ _ | .sltiu rd _ _ | .xori rd _ _ | .ori rd _ _ | .andi rd _ _ => some rd
  | .slli rd _ _ | .srli rd _ _ | .srai rd _ _ => some rd
  | .add rd _ _ | .sub rd _ _ | .sll rd _ _ | .slt rd _ _ | .sltu rd _ _ => some rd
  | .xor rd _ _ | .srl rd _ _ | .sra rd _ _ | .or rd _ _ | .and rd _ _ => some rd
  | .addiw rd _ _ | .slliw rd _ _ | .srliw rd _ _ | .sraiw rd _ _ => some rd
  | .addw rd _ _ | .subw rd _ _ | .sllw rd _ _ | .srlw rd _ _ | .sraw rd _ _ => some rd
  | .beq _ _ _ | .bne _ _ _ | .blt _ _ _ | .bge _ _ _ | .bltu _ _ _ | .bgeu _ _ _ => none
  | .sb _ _ _ | .sh _ _ _ | .sw _ _ _ | .sd _ _ _ | .ecall | .ebreak => none

/-- The address and width a load reads at. -/
def loadAccess (i : Instr) (s : State) : Option (Word × Nat) :=
  match i with
  | .lb _ rs1 imm | .lbu _ rs1 imm => some (effectiveAddress s rs1 imm, 1)
  | .lh _ rs1 imm | .lhu _ rs1 imm => some (effectiveAddress s rs1 imm, 2)
  | .lw _ rs1 imm | .lwu _ rs1 imm => some (effectiveAddress s rs1 imm, 4)
  | .ld _ rs1 imm => some (effectiveAddress s rs1 imm, 8)
  | _ => none

/-- The address and width a store writes at. -/
def storeAccess (i : Instr) (s : State) : Option (Word × Nat) :=
  match i with
  | .sb rs1 _ imm => some (effectiveAddress s rs1 imm, 1)
  | .sh rs1 _ imm => some (effectiveAddress s rs1 imm, 2)
  | .sw rs1 _ imm => some (effectiveAddress s rs1 imm, 4)
  | .sd rs1 _ imm => some (effectiveAddress s rs1 imm, 8)
  | _ => none

/-- The register a store takes its data from. -/
def storeData (i : Instr) : Option Reg :=
  match i with
  | .sb _ rs2 _ | .sh _ rs2 _ | .sw _ rs2 _ | .sd _ rs2 _ => some rs2
  | _ => none

/-- The target of an instruction that executes `pc <- t`, before the reduction modulo 2^64 (R135, R136, R140). -/
def jumpTarget (i : Instr) (s : State) : Option Int :=
  match i with
  | .jal _ imm => some (s.pc.toNat + imm.toInt)
  | .jalr _ rs1 imm => some ((s.readReg rs1).toNat + imm.toInt)
  | .beq rs1 rs2 imm => if s.readReg rs1 = s.readReg rs2 then some (s.pc.toNat + imm.toInt) else none
  | .bne rs1 rs2 imm => if s.readReg rs1 ≠ s.readReg rs2 then some (s.pc.toNat + imm.toInt) else none
  | .blt rs1 rs2 imm => if (s.readReg rs1).toInt < (s.readReg rs2).toInt then some (s.pc.toNat + imm.toInt) else none
  | .bge rs1 rs2 imm => if (s.readReg rs2).toInt ≤ (s.readReg rs1).toInt then some (s.pc.toNat + imm.toInt) else none
  | .bltu rs1 rs2 imm => if (s.readReg rs1).toNat < (s.readReg rs2).toNat then some (s.pc.toNat + imm.toInt) else none
  | .bgeu rs1 rs2 imm => if (s.readReg rs2).toNat ≤ (s.readReg rs1).toNat then some (s.pc.toNat + imm.toInt) else none
  | _ => none

/-- The nine word-width instructions (R204). -/
def isWordOp (i : Instr) : Bool :=
  match i with
  | .addiw _ _ _ | .slliw _ _ _ | .srliw _ _ _ | .sraiw _ _ _ => true
  | .addw _ _ _ | .subw _ _ _ | .sllw _ _ _ | .srlw _ _ _ | .sraw _ _ _ => true
  | _ => false

/-- The I immediate an instruction carries. -/
def immIOf (i : Instr) : Option (BitVec 12) :=
  match i with
  | .jalr _ _ imm | .lb _ _ imm | .lh _ _ imm | .lw _ _ imm | .lbu _ _ imm | .lhu _ _ imm | .lwu _ _ imm | .ld _ _ imm => some imm
  | .addi _ _ imm | .slti _ _ imm | .sltiu _ _ imm | .xori _ _ imm | .ori _ _ imm | .andi _ _ imm | .addiw _ _ imm => some imm
  | _ => none

/-- The S immediate an instruction carries. -/
def immSOf (i : Instr) : Option (BitVec 12) :=
  match i with
  | .sb _ _ imm | .sh _ _ imm | .sw _ _ imm | .sd _ _ imm => some imm
  | _ => none

/-- The B offset an instruction carries. -/
def immBOf (i : Instr) : Option (BitVec 13) :=
  match i with
  | .beq _ _ imm | .bne _ _ imm | .blt _ _ imm | .bge _ _ imm | .bltu _ _ imm | .bgeu _ _ imm => some imm
  | _ => none

/-- The U field an instruction carries. -/
def immUOf (i : Instr) : Option (BitVec 20) :=
  match i with
  | .lui _ imm | .auipc _ imm => some imm
  | _ => none

/-- The J offset an instruction carries. -/
def immJOf (i : Instr) : Option (BitVec 21) :=
  match i with
  | .jal _ imm => some imm
  | _ => none

/-- The first source register an instruction names (R25). -/
def source1 (i : Instr) : Option Reg :=
  match i with
  | .jalr _ rs1 _ => some rs1
  | .beq rs1 _ _ | .bne rs1 _ _ | .blt rs1 _ _ | .bge rs1 _ _ | .bltu rs1 _ _ | .bgeu rs1 _ _ => some rs1
  | .lb _ rs1 _ | .lh _ rs1 _ | .lw _ rs1 _ | .lbu _ rs1 _ | .lhu _ rs1 _ | .lwu _ rs1 _ | .ld _ rs1 _ => some rs1
  | .sb rs1 _ _ | .sh rs1 _ _ | .sw rs1 _ _ | .sd rs1 _ _ => some rs1
  | .addi _ rs1 _ | .slti _ rs1 _ | .sltiu _ rs1 _ | .xori _ rs1 _ | .ori _ rs1 _ | .andi _ rs1 _ => some rs1
  | .slli _ rs1 _ | .srli _ rs1 _ | .srai _ rs1 _ => some rs1
  | .add _ rs1 _ | .sub _ rs1 _ | .sll _ rs1 _ | .slt _ rs1 _ | .sltu _ rs1 _ => some rs1
  | .xor _ rs1 _ | .srl _ rs1 _ | .sra _ rs1 _ | .or _ rs1 _ | .and _ rs1 _ => some rs1
  | .addiw _ rs1 _ | .slliw _ rs1 _ | .srliw _ rs1 _ | .sraiw _ rs1 _ => some rs1
  | .addw _ rs1 _ | .subw _ rs1 _ | .sllw _ rs1 _ | .srlw _ rs1 _ | .sraw _ rs1 _ => some rs1
  | .lui _ _ | .auipc _ _ | .jal _ _ | .ecall | .ebreak => none

/-- The second source register an instruction names (R25). -/
def source2 (i : Instr) : Option Reg :=
  match i with
  | .beq _ rs2 _ | .bne _ rs2 _ | .blt _ rs2 _ | .bge _ rs2 _ | .bltu _ rs2 _ | .bgeu _ rs2 _ => some rs2
  | .sb _ rs2 _ | .sh _ rs2 _ | .sw _ rs2 _ | .sd _ rs2 _ => some rs2
  | .add _ _ rs2 | .sub _ _ rs2 | .sll _ _ rs2 | .slt _ _ rs2 | .sltu _ _ rs2 => some rs2
  | .xor _ _ rs2 | .srl _ _ rs2 | .sra _ _ rs2 | .or _ _ rs2 | .and _ _ rs2 => some rs2
  | .addw _ _ rs2 | .subw _ _ rs2 | .sllw _ _ rs2 | .srlw _ _ rs2 | .sraw _ _ rs2 => some rs2
  | _ => none

/-- The 6-bit and the 5-bit shift amounts an instruction carries. -/
def shamt6Carried (i : Instr) : Option (BitVec 6) :=
  match i with
  | .slli _ _ sh | .srli _ _ sh | .srai _ _ sh => some sh
  | _ => none

/-- The 5-bit shift amount an instruction carries. -/
def shamt5Carried (i : Instr) : Option (BitVec 5) :=
  match i with
  | .slliw _ _ sh | .srliw _ _ sh | .sraiw _ _ sh => some sh
  | _ => none

/-- The register fields of an instruction are the slices 11:7, 19:15 and 24:20 of its word (R71). -/
def RegisterFields (w : InstrWord) (i : Instr) : Prop :=
  (∀ r, destination i = some r → r.val = slice w 11 7) ∧
  (∀ r, source1 i = some r → r.val = slice w 19 15) ∧
  (∀ r, source2 i = some r → r.val = slice w 24 20)

/-- The byte that IMAGE leaves at an address: the last segment that covers it decides, a segment at address 0 is
skipped, an untouched address is 0 (R251, R253, D29). -/
def imageByte (gs : List Segment) (a : Nat) : Byte :=
  gs.foldl (fun b g =>
    if g.loadAddr ≠ 0 ∧ g.loadAddr.toNat ≤ a ∧ a < g.loadAddr.toNat + g.payload.length
    then g.payload.getD (a - g.loadAddr.toNat) 0 else b) 0

/-- The largest end address of the segments that are not skipped (R32, R253). -/
def imageEnd (gs : List Segment) : Nat :=
  gs.foldl (fun e g => if g.loadAddr ≠ 0 then max e (g.loadAddr.toNat + g.payload.length) else e) 0

/-- A segment is skipped or fits inside `size` bytes (R253). -/
def fits (size : Nat) (g : Segment) : Prop := g.loadAddr = 0 ∨ g.loadAddr.toNat + g.payload.length ≤ size

end Sys2Proof.Claims

open Sys2Proof Sys2Proof.Machine Sys2Proof.Claims

/-! ## Encoding and decoding -/

/-- Decode and encode agree, on words and on the bytes as memory holds them (R70): every operand of every well-formed
instruction survives, at every value its encoding admits, and the bytes after it are left alone. -/
def Obligations.DecodeOfEncodeIsTheInstruction : Prop :=
  ∀ i : Instr, i.wellFormed = true → decodeWord (encode i) = .ok i ∧
    ∀ rest, decodeBytes (bytesOfWord (encode i) ++ rest) = .ok (i, rest)

/-- R90: every bit of a word that decodes is examined or is an operand, so encoding gives the word back; only ECALL
and EBREAK leave bits out, the rd and rs1 fields, and any value there decodes as them (the spec's own decision D17). -/
def Obligations.EncodeOfDecodeIsTheWord : Prop :=
  (∀ w i, decodeWord w = .ok i → i.wellFormed = true ∧ (i ≠ .ecall → i ≠ .ebreak → encode i = w)) ∧
  (∀ w, decodeWord w = .ok .ecall ↔ w &&& 0xFFF0707F#32 = 0x00000073#32) ∧
  (∀ w, decodeWord w = .ok .ebreak ↔ w &&& 0xFFF0707F#32 = 0x00100073#32)

/-- R83, over the rows of R84 (`opcode_table.json`): there are 51 mnemonics; the dispatch answers an instruction exactly
where a row matches the word, an instruction of that row, and `InvalidOpcode(word)` everywhere else. (Four points of
the rows are the spec's own decisions: JALR's funct3 in row 4 is D11, the zero modes of SLLI and SLLIW in rows 28 and 44
are D14, the widths of the shift modes in rows 28 to 30 and 44 to 46 are D15, and the masks of ECALL and EBREAK, which
leave rd and rs1 unexamined, are D17.) -/
def Obligations.DispatchFollowsTheOpcodeTable : Prop :=
  opcodeTable.length = 51 ∧ (opcodeTable.map OpcodeRow.mnemonic).Nodup ∧
  ∀ w : InstrWord,
    (∀ i, decodeWord w = .ok i → i.row ∈ opcodeTable ∧ w &&& i.row.mask = i.row.bits) ∧
    (∀ r ∈ opcodeTable, w &&& r.mask = r.bits → ∃ i, decodeWord w = .ok i ∧ i.row = r) ∧
    ((∀ r ∈ opcodeTable, w &&& r.mask ≠ r.bits) → decodeWord w = .error (.invalidOpcode w))

/-- R88: every word whose opcode is not one of the twelve is `InvalidOpcode(word)`. -/
def Obligations.UnlistedOpcodesAreInvalid : Prop :=
  ∀ w : InstrWord,
    slice w 6 0 ∉ ([0x37, 0x17, 0x6F, 0x67, 0x63, 0x03, 0x23, 0x13, 0x33, 0x73, 0x1B, 0x3B] : List Nat) →
    decodeWord w = .error (.invalidOpcode w)

/-- R86, R87: within a listed opcode, the words that raise `InvalidOpcode`, and no others. (JALR's funct3 and the mode of
SLLI and SLLIW are the spec's own decisions D11, D14, D15.) -/
def Obligations.UnlistedCombinationsAreInvalid : Prop :=
  ∀ w : InstrWord,
    let op := slice w 6 0
    let f3 := slice w 14 12
    let f7 := slice w 31 25
    let m6 := slice w 31 26
    let invalid := decodeWord w = .error (.invalidOpcode w)
    (op = 0x67 → (invalid ↔ f3 ≠ 0)) ∧
    (op = 0x63 → (invalid ↔ f3 = 2 ∨ f3 = 3)) ∧
    (op = 0x03 → (invalid ↔ f3 = 7)) ∧
    (op = 0x23 → (invalid ↔ 4 ≤ f3)) ∧
    (op = 0x13 → (invalid ↔ (f3 = 1 ∧ m6 ≠ 0) ∨ (f3 = 5 ∧ m6 ≠ 0 ∧ m6 ≠ 16))) ∧
    (op = 0x33 → (invalid ↔ ¬ (f7 = 0 ∨ (f7 = 32 ∧ (f3 = 0 ∨ f3 = 5))))) ∧
    (op = 0x73 → (invalid ↔ f3 ≠ 0 ∨ 2 ≤ slice w 31 20)) ∧
    (op = 0x1B → (invalid ↔ f3 ∈ ([2, 3, 4, 6, 7] : List Nat) ∨ (f3 = 1 ∧ f7 ≠ 0) ∨ (f3 = 5 ∧ f7 ≠ 0 ∧ f7 ≠ 32))) ∧
    (op = 0x3B → (invalid ↔ ¬ ((f7 = 0 ∧ (f3 = 0 ∨ f3 = 1 ∨ f3 = 5)) ∨ (f7 = 32 ∧ (f3 = 0 ∨ f3 = 5))))) ∧
    (op = 0x37 ∨ op = 0x17 ∨ op = 0x6F → ¬ invalid)

/-- Words written out from the spec's encodings decode to the instructions they stand for, one or two of each family. (That
the last word, with rd = x31 and rs1 = x31, is EBREAK (R201) rests on the spec's own decision D17: those fields are
unexamined (R90). That bit 25 of the SRAI word belongs to its amount and that of the SRAIW word to its mode is D15; the
funct3 of BLTU is R84's from general knowledge.) -/
def Obligations.WrittenOutWordsDecode : Prop :=
  decodeWord 0x123452B7#32 = .ok (.lui 5 0x12345) ∧ decodeWord 0x00001317#32 = .ok (.auipc 6 1) ∧
  decodeWord 0xFF9FF06F#32 = .ok (.jal 0 (-8)) ∧ decodeWord 0xFFC280E7#32 = .ok (.jalr 1 5 (-4)) ∧
  decodeWord 0x7E20EFE3#32 = .ok (.bltu 1 2 4094) ∧ decodeWord 0x00813183#32 = .ok (.ld 3 2 8) ∧
  decodeWord 0xFE113C23#32 = .ok (.sd 2 1 (-8)) ∧ decodeWord 0x43F0D193#32 = .ok (.srai 3 1 63) ∧
  decodeWord 0x402081B3#32 = .ok (.sub 3 1 2) ∧ decodeWord 0x41F0D19B#32 = .ok (.sraiw 3 1 31) ∧
  decodeWord 0x4020D1BB#32 = .ok (.sraw 3 1 2) ∧ decodeWord 0x001F8FF3#32 = .ok .ebreak

/-- R72, R73, R74, R76: the formats R, I, S and U: the register fields are the slices 11:7, 19:15 and 24:20, the
immediates, extended to 64 bits, are the signed values of their fields, and which opcodes use each format; for
opcode 1110011 the 12-bit field is read unsigned and selects the instruction. -/
def Obligations.FieldsOfFormatsRISU : Prop :=
  ∀ w i, decodeWord w = .ok i →
    RegisterFields w i ∧
    (((source2 i).isSome = true ∧ (destination i).isSome = true) ↔ slice w 6 0 = 0x33 ∨ slice w 6 0 = 0x3B) ∧
    (∀ imm, immIOf i = some imm → (imm12 imm).toInt = signed 12 (slice w 31 20)) ∧
    (∀ imm, immSOf i = some imm → (imm12 imm).toInt = signed 12 (slice w 31 25 * 32 + slice w 11 7)) ∧
    (∀ imm, immUOf i = some imm → (imm20 imm).toInt = signed 20 (slice w 31 12) * 4096) ∧
    ((immIOf i).isSome = true ↔ slice w 6 0 ∈ ([0x67, 0x03] : List Nat) ∨
      (slice w 6 0 = 0x13 ∧ slice w 14 12 ≠ 1 ∧ slice w 14 12 ≠ 5) ∨ (slice w 6 0 = 0x1B ∧ slice w 14 12 = 0)) ∧
    (i = .ecall ↔ slice w 6 0 = 0x73 ∧ slice w 31 20 = 0) ∧
    (i = .ebreak ↔ slice w 6 0 = 0x73 ∧ slice w 31 20 = 1) ∧
    ((immSOf i).isSome = true ↔ slice w 6 0 = 0x23) ∧
    ((immUOf i).isSome = true ↔ slice w 6 0 = 0x37 ∨ slice w 6 0 = 0x17)

/-- R75, R77: the formats B and J: the register fields, the offsets, extended to 64 bits, assembled from their four
split fields with bit 0 zero, and which opcodes use each. -/
def Obligations.FieldsOfFormatsBJ : Prop :=
  ∀ w i, decodeWord w = .ok i →
    RegisterFields w i ∧
    (∀ imm, immBOf i = some imm → (imm13 imm).toInt =
      signed 13 (slice w 31 31 * 2 ^ 12 + slice w 7 7 * 2 ^ 11 + slice w 30 25 * 2 ^ 5 + slice w 11 8 * 2)) ∧
    (∀ imm, immJOf i = some imm → (imm21 imm).toInt =
      signed 21 (slice w 31 31 * 2 ^ 20 + slice w 19 12 * 2 ^ 12 + slice w 20 20 * 2 ^ 11 + slice w 30 21 * 2)) ∧
    ((immBOf i).isSome = true ↔ slice w 6 0 = 0x63) ∧
    ((immJOf i).isSome = true ↔ slice w 6 0 = 0x6F)

/-- R78, R79: the shift-immediate variants: the register fields, the amounts word[25:20] and word[24:20], unsigned, the
modes the two variants allow, which words use each, and that bit 25 set under opcode 0011011 is `InvalidOpcode` (the
widths of the two modes are the spec's own decision D15). -/
def Obligations.FieldsOfShiftImmediates : Prop :=
  (∀ w i, decodeWord w = .ok i →
    RegisterFields w i ∧
    (∀ sh, shamt6Carried i = some sh → sh.toNat = slice w 25 20 ∧ (slice w 31 26 = 0 ∨ slice w 31 26 = 16)) ∧
    (∀ sh, shamt5Carried i = some sh → sh.toNat = slice w 24 20 ∧ sh.toNat = slice w 25 20
      ∧ (slice w 31 25 = 0 ∨ slice w 31 25 = 32)) ∧
    ((shamt6Carried i).isSome = true ↔ slice w 6 0 = 0x13 ∧ (slice w 14 12 = 1 ∨ slice w 14 12 = 5)) ∧
    ((shamt5Carried i).isSome = true ↔ slice w 6 0 = 0x1B ∧ (slice w 14 12 = 1 ∨ slice w 14 12 = 5))) ∧
  ∀ w : InstrWord, slice w 6 0 = 0x1B → slice w 14 12 = 1 ∨ slice w 14 12 = 5 → slice w 25 25 = 1 →
    decodeWord w = .error (.invalidOpcode w)

/-! ## Registers, fetch and memory -/

/-- R21: x0 reads 0 in every state, a write to it is discarded, and it still reads 0 after every step; every other
register reads what was last written to it. An instruction with rd = x0 changes no register and no byte, and everything
else it does still happens: its pc update, and a load's memory read, whose bounds violation is raised exactly as for
another rd (the spec's own decision D24). -/
def Obligations.RegisterZeroIsHardwired : Prop :=
  (∀ s : State, s.readReg 0 = 0) ∧
  (∀ (s : State) v, s.writeReg 0 v = s) ∧
  (∀ (s : State) (r q : Reg) v, r ≠ 0 → (s.writeReg r v).readReg q = if q = r then v else s.readReg q) ∧
  (∀ s t, step s = .next t → t.readReg 0 = 0) ∧
  ∀ (i : Instr) (s : State), destination i = some 0 →
    ((∀ addr n, loadAccess i s = some (addr, n) → addr.toNat + n ≤ s.mem.size) →
      ∃ t, exec i s = .next t ∧ SameRegs s t ∧ SameMemory s t ∧ Stepped s t ∧
        (t.pc.toNat : Int) = (match jumpTarget i s with | some z => z | none => (s.pc.toNat : Int) + 4) % 2 ^ 64) ∧
    (∀ addr n, loadAccess i s = some (addr, n) → s.mem.size < addr.toNat + n →
      exec i s = .fault (.boundsViolation addr n))

/-- R111: the fetch reads the four bytes at the pc, little-endian and at any alignment; where they are not inside
memory the step is the bounds violation of (pc, 4). -/
def Obligations.FetchReadsFourBytesAtThePc : Prop :=
  ∀ s : State,
    (s.pc.toNat + 4 ≤ s.mem.size → ∃ w, fetchWord s = .ok w ∧ w.toNat = leSum s.mem s.pc.toNat 4) ∧
    (s.mem.size < s.pc.toNat + 4 → step s = .fault (.boundsViolation s.pc 4))

/-- A step runs the decoded instruction: where the four bytes at the pc decode to `i`, the step is `exec i` at that
same state, and nothing is added around it (R110, R112, R113). -/
def Obligations.StepRunsTheDecodedInstruction : Prop :=
  ∀ (s : State) (i : Instr) (rest : List Byte), s.pc.toNat + 4 ≤ s.mem.size →
    decodeBytes (s.mem.bytes s.pc.toNat 4) = .ok (i, rest) → step s = exec i s

/-- R42: `MemRead(addr, n)` is the little-endian sum of the n bytes where they are inside memory, and the bounds
violation where they are not, the sum of R45 taken in unbounded integers. -/
def Obligations.MemReadIsTheLittleEndianSum : Prop :=
  ∀ (m : Memory) (addr : Word) (n : Nat), n ∈ ([1, 2, 4, 8] : List Nat) →
    (addr.toNat + n ≤ m.size → memRead m addr n = .ok (leSum m addr.toNat n)) ∧
    (m.size < addr.toNat + n → memRead m addr n = .error (.boundsViolation addr n))

/-- R43: `MemWrite(addr, n, v)` changes exactly the n bytes, to v[8i+7 : 8i], where they are inside memory, and is
the bounds violation, with no memory left behind, where they are not. Memory in its canonical form. -/
def Obligations.MemWriteStoresEachByte : Prop :=
  ∀ (m : Memory) (addr : Word) (n : Nat) (v : Word), m.wf → n ∈ ([1, 2, 4, 8] : List Nat) →
    (addr.toNat + n ≤ m.size → ∃ m', memWrite m addr n v = .ok m' ∧ StoredAt m m' addr.toNat n v) ∧
    (m.size < addr.toNat + n → memWrite m addr n v = .error (.boundsViolation addr n))

/-- R41: the order is little-endian for data and for fetch alike: after a write of 0x11223344 the narrower reads and
the fetch see the bytes where R43 put them. (That data is little-endian is the spec's own decision D5.) -/
def Obligations.MixedWidthAccessesSeeTheBytes : Prop :=
  ∀ (s : State) (a : Word), s.wf → a.toNat + 4 ≤ s.mem.size →
    ∃ m, memWrite s.mem a 4 0x11223344 = .ok m ∧
      memRead m a 1 = .ok 0x44 ∧ memRead m (a + 1) 1 = .ok 0x33 ∧ memRead m a 2 = .ok 0x3344 ∧
      memRead m (a + 2) 2 = .ok 0x1122 ∧ fetchWord { s with mem := m, pc := a } = .ok 0x11223344#32

/-- R44: the effective address is x[rs1] plus the sign-extended immediate, modulo 2^64. -/
def Obligations.EffectiveAddressIsModular : Prop :=
  ∀ (s : State) rs1 imm, ((effectiveAddress s rs1 imm).toNat : Int) = ((s.readReg rs1).toNat + imm.toInt) % 2 ^ 64

/-! ## The instructions -/

/-- R130: LUI. -/
def Obligations.LuiWritesTheUpperImmediate : Prop :=
  Selects 0x0000007F#32 0x00000037#32 (fun w => .lui (rdOf w) (immU w)) ∧
  ∀ rd imm, Computes (.lui rd imm) rd fun _ v => v.toInt = imm.toInt * 4096

/-- R131: AUIPC. -/
def Obligations.AuipcAddsTheUpperImmediateToThePc : Prop :=
  Selects 0x0000007F#32 0x00000017#32 (fun w => .auipc (rdOf w) (immU w)) ∧
  ∀ rd imm, Computes (.auipc rd imm) rd fun s v => (v.toNat : Int) = (s.pc.toNat + imm.toInt * 4096) % 2 ^ 64

/-- R135: JAL. The offset that a word carries is even. -/
def Obligations.JalLinksAndJumps : Prop :=
  Selects 0x0000007F#32 0x0000006F#32 (fun w => .jal (rdOf w) (immJ w)) ∧
  (∀ w, (immJ w).toNat % 2 = 0) ∧
  ∀ rd imm, Jumps (.jal rd imm) rd fun s => s.pc.toNat + imm.toInt

/-- R136: JALR; the base is read before rd is written, and bit 0 of the target is kept (the spec's own decisions D13 and
D12; that funct3 must be 000 is D11). -/
def Obligations.JalrLinksAndJumpsToTheOldBase : Prop :=
  Selects 0x0000707F#32 0x00000067#32 (fun w => .jalr (rdOf w) (rs1Of w) (immI w)) ∧
  (∀ w : InstrWord, slice w 6 0 = 0x67 → slice w 14 12 ≠ 0 → decodeWord w = .error (.invalidOpcode w)) ∧
  ∀ rd rs1 imm, Jumps (.jalr rd rs1 imm) rd fun s => (s.readReg rs1).toNat + imm.toInt

/-- R141, R142: BEQ and BNE. (The spec takes the funct3 of the branches, the loads, SB, SH, SW and the immediate ALU
instructions from general knowledge, R84, R85; it does so in the rules cited here and below.) -/
def Obligations.BeqBneBranchOnEquality : Prop :=
  Selects 0x0000707F#32 0x00000063#32 (fun w => .beq (rs1Of w) (rs2Of w) (immB w)) ∧
  Selects 0x0000707F#32 0x00001063#32 (fun w => .bne (rs1Of w) (rs2Of w) (immB w)) ∧
  ∀ rs1 rs2 imm,
    Branches (.beq rs1 rs2 imm) rs1 rs2 imm (fun a b => a = b) ∧
    Branches (.bne rs1 rs2 imm) rs1 rs2 imm (fun a b => a ≠ b)

/-- R143, R144: BLT and BGE, signed. -/
def Obligations.BltBgeBranchOnSignedOrder : Prop :=
  Selects 0x0000707F#32 0x00004063#32 (fun w => .blt (rs1Of w) (rs2Of w) (immB w)) ∧
  Selects 0x0000707F#32 0x00005063#32 (fun w => .bge (rs1Of w) (rs2Of w) (immB w)) ∧
  ∀ rs1 rs2 imm,
    Branches (.blt rs1 rs2 imm) rs1 rs2 imm (fun a b => a.toInt < b.toInt) ∧
    Branches (.bge rs1 rs2 imm) rs1 rs2 imm (fun a b => b.toInt ≤ a.toInt)

/-- R145, R146: BLTU and BGEU, unsigned. -/
def Obligations.BltuBgeuBranchOnUnsignedOrder : Prop :=
  Selects 0x0000707F#32 0x00006063#32 (fun w => .bltu (rs1Of w) (rs2Of w) (immB w)) ∧
  Selects 0x0000707F#32 0x00007063#32 (fun w => .bgeu (rs1Of w) (rs2Of w) (immB w)) ∧
  ∀ rs1 rs2 imm,
    Branches (.bltu rs1 rs2 imm) rs1 rs2 imm (fun a b => a.toNat < b.toNat) ∧
    Branches (.bgeu rs1 rs2 imm) rs1 rs2 imm (fun a b => b.toNat ≤ a.toNat)

/-- R151, R154: LB and LBU. -/
def Obligations.LbLbuLoadAByte : Prop :=
  Selects 0x0000707F#32 0x00000003#32 (fun w => .lb (rdOf w) (rs1Of w) (immI w)) ∧
  Selects 0x0000707F#32 0x00004003#32 (fun w => .lbu (rdOf w) (rs1Of w) (immI w)) ∧
  ∀ rd rs1 imm,
    Loads (.lb rd rs1 imm) rd rs1 imm 1 (fun n v => v.toInt = signed 8 n) ∧
    Loads (.lbu rd rs1 imm) rd rs1 imm 1 (fun n v => v.toNat = n)

/-- R152, R155: LH and LHU. -/
def Obligations.LhLhuLoadAHalfword : Prop :=
  Selects 0x0000707F#32 0x00001003#32 (fun w => .lh (rdOf w) (rs1Of w) (immI w)) ∧
  Selects 0x0000707F#32 0x00005003#32 (fun w => .lhu (rdOf w) (rs1Of w) (immI w)) ∧
  ∀ rd rs1 imm,
    Loads (.lh rd rs1 imm) rd rs1 imm 2 (fun n v => v.toInt = signed 16 n) ∧
    Loads (.lhu rd rs1 imm) rd rs1 imm 2 (fun n v => v.toNat = n)

/-- R153, R156, R157: LW, LWU and LD. -/
def Obligations.LwLwuLdLoadWords : Prop :=
  Selects 0x0000707F#32 0x00002003#32 (fun w => .lw (rdOf w) (rs1Of w) (immI w)) ∧
  Selects 0x0000707F#32 0x00006003#32 (fun w => .lwu (rdOf w) (rs1Of w) (immI w)) ∧
  Selects 0x0000707F#32 0x00003003#32 (fun w => .ld (rdOf w) (rs1Of w) (immI w)) ∧
  ∀ rd rs1 imm,
    Loads (.lw rd rs1 imm) rd rs1 imm 4 (fun n v => v.toInt = signed 32 n) ∧
    Loads (.lwu rd rs1 imm) rd rs1 imm 4 (fun n v => v.toNat = n) ∧
    Loads (.ld rd rs1 imm) rd rs1 imm 8 (fun n v => v.toNat = n)

/-- R161, R162: SB and SH. -/
def Obligations.SbShStoreTheLowBytes : Prop :=
  Selects 0x0000707F#32 0x00000023#32 (fun w => .sb (rs1Of w) (rs2Of w) (immS w)) ∧
  Selects 0x0000707F#32 0x00001023#32 (fun w => .sh (rs1Of w) (rs2Of w) (immS w)) ∧
  ∀ rs1 rs2 imm, Stores (.sb rs1 rs2 imm) rs1 rs2 imm 1 ∧ Stores (.sh rs1 rs2 imm) rs1 rs2 imm 2

/-- R163, R164: SW and SD. -/
def Obligations.SwSdStoreWords : Prop :=
  Selects 0x0000707F#32 0x00002023#32 (fun w => .sw (rs1Of w) (rs2Of w) (immS w)) ∧
  Selects 0x0000707F#32 0x00003023#32 (fun w => .sd (rs1Of w) (rs2Of w) (immS w)) ∧
  ∀ rs1 rs2 imm, Stores (.sw rs1 rs2 imm) rs1 rs2 imm 4 ∧ Stores (.sd rs1 rs2 imm) rs1 rs2 imm 8

/-- R170: ADDI, modulo 2^64. -/
def Obligations.AddiAddsTheImmediate : Prop :=
  Selects 0x0000707F#32 0x00000013#32 (fun w => .addi (rdOf w) (rs1Of w) (immI w)) ∧
  ∀ rd rs1 imm, Computes (.addi rd rs1 imm) rd fun s v =>
    (v.toNat : Int) = ((s.readReg rs1).toNat + imm.toInt) % 2 ^ 64

/-- R171, R172: SLTI compares signed; SLTIU compares the sign-extended immediate as an unsigned number. -/
def Obligations.SltiSltiuSetOnOrder : Prop :=
  Selects 0x0000707F#32 0x00002013#32 (fun w => .slti (rdOf w) (rs1Of w) (immI w)) ∧
  Selects 0x0000707F#32 0x00003013#32 (fun w => .sltiu (rdOf w) (rs1Of w) (immI w)) ∧
  ∀ rd rs1 imm,
    Computes (.slti rd rs1 imm) rd (fun s v => v = if (s.readReg rs1).toInt < imm.toInt then 1 else 0) ∧
    Computes (.sltiu rd rs1 imm) rd
      (fun s v => v = if ((s.readReg rs1).toNat : Int) < imm.toInt % 2 ^ 64 then 1 else 0)

/-- R173, R174, R175: XORI, ORI and ANDI, bit by bit with the sign bit of the immediate copied up. -/
def Obligations.XoriOriAndiAreBitwise : Prop :=
  Selects 0x0000707F#32 0x00004013#32 (fun w => .xori (rdOf w) (rs1Of w) (immI w)) ∧
  Selects 0x0000707F#32 0x00006013#32 (fun w => .ori (rdOf w) (rs1Of w) (immI w)) ∧
  Selects 0x0000707F#32 0x00007013#32 (fun w => .andi (rdOf w) (rs1Of w) (immI w)) ∧
  ∀ rd rs1 imm,
    Computes (.xori rd rs1 imm) rd (fun s v => ∀ k < 64,
      v.getLsbD k = ((s.readReg rs1).getLsbD k ^^ imm.getLsbD (min k 11))) ∧
    Computes (.ori rd rs1 imm) rd (fun s v => ∀ k < 64,
      v.getLsbD k = ((s.readReg rs1).getLsbD k || imm.getLsbD (min k 11))) ∧
    Computes (.andi rd rs1 imm) rd (fun s v => ∀ k < 64,
      v.getLsbD k = ((s.readReg rs1).getLsbD k && imm.getLsbD (min k 11)))

/-- R176, R177, R178: SLLI, SRLI and SRAI, the last the floor of the signed value over a power of two. (The mode 0
of SLLI is the spec's own decision D14.) -/
def Obligations.ShiftImmediatesShift : Prop :=
  Selects 0xFC00707F#32 0x00001013#32 (fun w => .slli (rdOf w) (rs1Of w) (shamt6Of w)) ∧
  Selects 0xFC00707F#32 0x00005013#32 (fun w => .srli (rdOf w) (rs1Of w) (shamt6Of w)) ∧
  Selects 0xFC00707F#32 0x40005013#32 (fun w => .srai (rdOf w) (rs1Of w) (shamt6Of w)) ∧
  (∀ w : InstrWord, slice w 6 0 = 0x13 → slice w 14 12 = 1 → slice w 31 26 ≠ 0 → decodeWord w = .error (.invalidOpcode w)) ∧
  (∀ w : InstrWord, slice w 6 0 = 0x13 → slice w 14 12 = 5 → slice w 31 26 ≠ 0 → slice w 31 26 ≠ 16 →
    decodeWord w = .error (.invalidOpcode w)) ∧
  ∀ rd rs1 sh,
    Computes (.slli rd rs1 sh) rd (fun s v => v.toNat = (s.readReg rs1).toNat * 2 ^ sh.toNat % 2 ^ 64) ∧
    Computes (.srli rd rs1 sh) rd (fun s v => v.toNat = (s.readReg rs1).toNat / 2 ^ sh.toNat) ∧
    Computes (.srai rd rs1 sh) rd (fun s v => v.toInt = (s.readReg rs1).toInt / 2 ^ sh.toNat)

/-- R185, R186: ADD and SUB, modulo 2^64. -/
def Obligations.AddSubAreModular : Prop :=
  Selects 0xFE00707F#32 0x00000033#32 (fun w => .add (rdOf w) (rs1Of w) (rs2Of w)) ∧
  Selects 0xFE00707F#32 0x40000033#32 (fun w => .sub (rdOf w) (rs1Of w) (rs2Of w)) ∧
  ∀ rd rs1 rs2,
    Computes (.add rd rs1 rs2) rd (fun s v =>
      v.toNat = ((s.readReg rs1).toNat + (s.readReg rs2).toNat) % 2 ^ 64) ∧
    Computes (.sub rd rs1 rs2) rd (fun s v =>
      (v.toNat : Int) = ((s.readReg rs1).toNat - (s.readReg rs2).toNat : Int) % 2 ^ 64)

/-- R188, R189: SLT and SLTU write 1 or 0. -/
def Obligations.SltSltuSetOnOrder : Prop :=
  Selects 0xFE00707F#32 0x00002033#32 (fun w => .slt (rdOf w) (rs1Of w) (rs2Of w)) ∧
  Selects 0xFE00707F#32 0x00003033#32 (fun w => .sltu (rdOf w) (rs1Of w) (rs2Of w)) ∧
  ∀ rd rs1 rs2,
    Computes (.slt rd rs1 rs2) rd (fun s v => v = if (s.readReg rs1).toInt < (s.readReg rs2).toInt then 1 else 0) ∧
    Computes (.sltu rd rs1 rs2) rd (fun s v => v = if (s.readReg rs1).toNat < (s.readReg rs2).toNat then 1 else 0)

/-- R190, R193, R194: XOR, OR and AND, bit by bit. -/
def Obligations.XorOrAndAreBitwise : Prop :=
  Selects 0xFE00707F#32 0x00004033#32 (fun w => .xor (rdOf w) (rs1Of w) (rs2Of w)) ∧
  Selects 0xFE00707F#32 0x00006033#32 (fun w => .or (rdOf w) (rs1Of w) (rs2Of w)) ∧
  Selects 0xFE00707F#32 0x00007033#32 (fun w => .and (rdOf w) (rs1Of w) (rs2Of w)) ∧
  ∀ rd rs1 rs2,
    Computes (.xor rd rs1 rs2) rd (fun s v => ∀ k < 64,
      v.getLsbD k = ((s.readReg rs1).getLsbD k ^^ (s.readReg rs2).getLsbD k)) ∧
    Computes (.or rd rs1 rs2) rd (fun s v => ∀ k < 64,
      v.getLsbD k = ((s.readReg rs1).getLsbD k || (s.readReg rs2).getLsbD k)) ∧
    Computes (.and rd rs1 rs2) rd (fun s v => ∀ k < 64,
      v.getLsbD k = ((s.readReg rs1).getLsbD k && (s.readReg rs2).getLsbD k))

/-- R187, R191, R192: SLL, SRL and SRA by the low 6 bits of x[rs2]. -/
def Obligations.RegisterShiftsUseSixBits : Prop :=
  Selects 0xFE00707F#32 0x00001033#32 (fun w => .sll (rdOf w) (rs1Of w) (rs2Of w)) ∧
  Selects 0xFE00707F#32 0x00005033#32 (fun w => .srl (rdOf w) (rs1Of w) (rs2Of w)) ∧
  Selects 0xFE00707F#32 0x40005033#32 (fun w => .sra (rdOf w) (rs1Of w) (rs2Of w)) ∧
  ∀ rd rs1 rs2,
    Computes (.sll rd rs1 rs2) rd (fun s v =>
      v.toNat = (s.readReg rs1).toNat * 2 ^ ((s.readReg rs2).toNat % 64) % 2 ^ 64) ∧
    Computes (.srl rd rs1 rs2) rd (fun s v => v.toNat = (s.readReg rs1).toNat / 2 ^ ((s.readReg rs2).toNat % 64)) ∧
    Computes (.sra rd rs1 rs2) rd (fun s v => v.toInt = (s.readReg rs1).toInt / 2 ^ ((s.readReg rs2).toNat % 64))

/-- R205, R209, R210: ADDIW, ADDW and SUBW: the 32-bit result, sign-extended. -/
def Obligations.WordAddSubSignExtend : Prop :=
  Selects 0x0000707F#32 0x0000001B#32 (fun w => .addiw (rdOf w) (rs1Of w) (immI w)) ∧
  Selects 0xFE00707F#32 0x0000003B#32 (fun w => .addw (rdOf w) (rs1Of w) (rs2Of w)) ∧
  Selects 0xFE00707F#32 0x4000003B#32 (fun w => .subw (rdOf w) (rs1Of w) (rs2Of w)) ∧
  (∀ rd rs1 imm, Computes (.addiw rd rs1 imm) rd fun s v =>
    v.toInt = Int.bmod ((s.readReg rs1).toNat + imm.toInt) (2 ^ 32)) ∧
  ∀ rd rs1 rs2,
    Computes (.addw rd rs1 rs2) rd (fun s v =>
      v.toInt = Int.bmod ((s.readReg rs1).toNat + (s.readReg rs2).toNat) (2 ^ 32)) ∧
    Computes (.subw rd rs1 rs2) rd (fun s v =>
      v.toInt = Int.bmod ((s.readReg rs1).toNat - (s.readReg rs2).toNat) (2 ^ 32))

/-- R206, R207, R208: SLLIW, SRLIW and SRAIW on the low word, by the 5-bit amount (the spec's own decisions D14,
D15, D16). -/
def Obligations.WordShiftImmediatesSignExtend : Prop :=
  Selects 0xFE00707F#32 0x0000101B#32 (fun w => .slliw (rdOf w) (rs1Of w) (shamt5Of w)) ∧
  Selects 0xFE00707F#32 0x0000501B#32 (fun w => .srliw (rdOf w) (rs1Of w) (shamt5Of w)) ∧
  Selects 0xFE00707F#32 0x4000501B#32 (fun w => .sraiw (rdOf w) (rs1Of w) (shamt5Of w)) ∧
  (∀ w : InstrWord, slice w 6 0 = 0x1B → slice w 14 12 = 1 → slice w 25 25 = 1 → decodeWord w = .error (.invalidOpcode w)) ∧
  ∀ rd rs1 sh,
    Computes (.slliw rd rs1 sh) rd (fun s v =>
      v.toInt = signed 32 ((s.readReg rs1).toNat % 2 ^ 32 * 2 ^ sh.toNat % 2 ^ 32)) ∧
    Computes (.srliw rd rs1 sh) rd (fun s v =>
      v.toInt = signed 32 ((s.readReg rs1).toNat % 2 ^ 32 / 2 ^ sh.toNat)) ∧
    Computes (.sraiw rd rs1 sh) rd (fun s v =>
      v.toInt = signed 32 ((s.readReg rs1).toNat % 2 ^ 32) / 2 ^ sh.toNat)

/-- R211, R212, R213: SLLW, SRLW and SRAW on the low word, by the low 5 bits of x[rs2] (the spec's own decision
D16). -/
def Obligations.WordRegisterShiftsSignExtend : Prop :=
  Selects 0xFE00707F#32 0x0000103B#32 (fun w => .sllw (rdOf w) (rs1Of w) (rs2Of w)) ∧
  Selects 0xFE00707F#32 0x0000503B#32 (fun w => .srlw (rdOf w) (rs1Of w) (rs2Of w)) ∧
  Selects 0xFE00707F#32 0x4000503B#32 (fun w => .sraw (rdOf w) (rs1Of w) (rs2Of w)) ∧
  ∀ rd rs1 rs2,
    Computes (.sllw rd rs1 rs2) rd (fun s v =>
      v.toInt = signed 32 ((s.readReg rs1).toNat % 2 ^ 32 * 2 ^ ((s.readReg rs2).toNat % 32) % 2 ^ 32)) ∧
    Computes (.srlw rd rs1 rs2) rd (fun s v =>
      v.toInt = signed 32 ((s.readReg rs1).toNat % 2 ^ 32 / 2 ^ ((s.readReg rs2).toNat % 32))) ∧
    Computes (.sraw rd rs1 rs2) rd (fun s v =>
      v.toInt = signed 32 ((s.readReg rs1).toNat % 2 ^ 32) / 2 ^ ((s.readReg rs2).toNat % 32))

/-- R200: ECALL, whatever its rd and rs1 fields hold, takes the exit `Syscall`, changes nothing, and stepped again
takes it again. (That the two fields are not examined is the spec's own decision D17; the report is a field of the model's
State, log entry 5.) -/
def Obligations.EcallTakesTheSyscallExit : Prop :=
  Selects 0xFFF0707F#32 0x00000073#32 (fun _ => .ecall) ∧ Exits .ecall .syscall

/-- R201: EBREAK, whatever its rd and rs1 fields hold, takes the exit `NotImplemented`, changes nothing, and stepped
again takes it again. (The outcome and the unexamined fields are the spec's own decisions D18, D17; the report is a field
of the model's State, log entry 5.) -/
def Obligations.EbreakTakesTheNotImplementedExit : Prop :=
  Selects 0xFFF0707F#32 0x00100073#32 (fun _ => .ebreak) ∧ Exits .ebreak .notImplemented

/-- R124: the instructions of opcodes 0011011 and 0111011 are the nine word-width ones; each completes with a result that
depends on the low 32 bits of its sources alone, is `sext_32` of a 32-bit pattern, and so has bits 63:31 all equal. -/
def Obligations.WordResultsIgnoreHighHalves : Prop :=
  (∀ w i, decodeWord w = .ok i → (isWordOp i = true ↔ slice w 6 0 = 0x1B ∨ slice w 6 0 = 0x3B)) ∧
  ∀ (i : Instr) (rd : Reg) (s s' : State), isWordOp i = true → destination i = some rd →
    (∀ r, (s.readReg r).toNat % 2 ^ 32 = (s'.readReg r).toNat % 2 ^ 32) →
    ∃ t t', exec i s = .next t ∧ exec i s' = .next t' ∧ t.readReg rd = t'.readReg rd ∧
      (∃ p, t.readReg rd = sext32 p) ∧ ∀ k, 31 ≤ k → k < 64 → (t.readReg rd).getLsbD k = (t.readReg rd).getLsbD 63

/-! ## The whole machine -/

/-- Every step from a well-formed state leaves a well-formed state of the same memory size: the cells stay in their
canonical form inside memory, and MEM_SIZE never changes (R26). The canonical form is the model's, log entry 6. -/
def Obligations.StepKeepsTheStateWellFormed : Prop :=
  ∀ s t : State, s.wf → step s = .next t → t.wf ∧ t.mem.size = s.mem.size

/-- The state after reset is well formed, and it is what the boot of R252 gives for the parameter values that log
entries 1 to 4 name (the model's choice, no rule of spec/). -/
def Obligations.ResetIsWellFormed : Prop :=
  State.reset.wf ∧ boot Config.params = .ok State.reset

/-- R226: a step that ends in an exit leaves every register, every byte of memory and the pc as they were (for two of the
three exits the spec's own decision D10; the report is a field of the model's State, log entry 5). -/
def Obligations.ExitsChangeNothing : Prop :=
  ∀ s t e, step s = .next t → t.exit = some e → t = { s with exit := some e }

/-- R221, R222, R223: which step reports which exit, and what it carries. (That EBREAK alone is `NotImplemented` is the
spec's own decision D18, D26.) -/
def Obligations.ExitsHaveExactlyTheirCauses : Prop :=
  ∀ s t, step s = .next t → ∃ w, fetchWord s = .ok w ∧
    (∀ u, t.exit = some (.invalidOpcode u) ↔ u = w ∧ ∀ r ∈ opcodeTable, w &&& r.mask ≠ r.bits) ∧
    (t.exit = some .notImplemented ↔ decodeWord w = .ok .ebreak) ∧
    (t.exit = some .syscall ↔ decodeWord w = .ok .ecall)

/-- R224: the fatal fault is raised by the fetch, and by the access of a load or a store, exactly where the range is
not inside memory, and by nothing else (that it is fatal, and what it carries, is the spec's own decision D8). -/
def Obligations.BoundsViolationsHaveExactlyTheirCauses : Prop :=
  ∀ s f, step s = .fault f ↔
    (s.mem.size < s.pc.toNat + 4 ∧ f = .boundsViolation s.pc 4) ∨
    ∃ w i addr n, fetchWord s = .ok w ∧ decodeWord w = .ok i ∧
      (loadAccess i s = some (addr, n) ∨ storeAccess i s = some (addr, n)) ∧
      s.mem.size < addr.toNat + n ∧ f = .boundsViolation addr n

/-- R220, R229: every step has exactly one outcome of the closed set, the events met in the order of the phases: the
fetch's bounds violation, then `InvalidOpcode`, then what the execute arm raises; no step is refused. (The spec marks R229 as derived.) -/
def Obligations.OutcomesAreClosedAndOrdered : Prop :=
  ∀ s : State,
    (s.mem.size < s.pc.toNat + 4 ∧ step s = .fault (.boundsViolation s.pc 4)) ∨
    (s.pc.toNat + 4 ≤ s.mem.size ∧ ∃ w, fetchWord s = .ok w ∧
      ((decodeWord w = .error (.invalidOpcode w) ∧ step s = .next { s with exit := some (.invalidOpcode w) }) ∨
       ∃ i, decodeWord w = .ok i ∧
        ((i = .ecall ∧ step s = .next { s with exit := some .syscall }) ∨
         (i = .ebreak ∧ step s = .next { s with exit := some .notImplemented }) ∨
         (∃ t, step s = .next t ∧ t.exit = none) ∨
         (∃ addr n, step s = .fault (.boundsViolation addr n) ∧
           (loadAccess i s = some (addr, n) ∨ storeAccess i s = some (addr, n))))))

/-- R118: a step that is `stepped` sets the pc to the target where the instruction executed `pc <- t`, else to pc + 4,
modulo 2^64; a step that ends in an exit leaves the pc unchanged. (The spec's own decisions D9, D10, D28. A step that
ends in the fatal fault has no next state.) -/
def Obligations.PcAdvancesOrJumps : Prop :=
  ∀ s t, step s = .next t →
    (t.exit ≠ none → t.pc = s.pc) ∧
    (t.exit = none → ∃ w i, fetchWord s = .ok w ∧ decodeWord w = .ok i ∧
      (t.pc.toNat : Int) = (match jumpTarget i s with | some z => z | none => (s.pc.toNat : Int) + 4) % 2 ^ 64)

/-- R119: what one step can touch: the one register its instruction names as destination, the bytes of its one store,
the pc and the report. Every other register and every other byte is as before, and the loader's cursor too. (The spec
marks R119 as derived.) -/
def Obligations.OneStepTouchesOnlyItsOwn : Prop :=
  ∀ s t : State, s.wf → step s = .next t → t.exit = none →
    ∃ w i, fetchWord s = .ok w ∧ decodeWord w = .ok i ∧ t.curAlloc = s.curAlloc ∧
      (∀ r, destination i ≠ some r → t.readReg r = s.readReg r) ∧
      (storeAccess i s = none → ∀ a, t.mem.byte a = s.mem.byte a) ∧
      (∀ addr n, storeAccess i s = some (addr, n) → n ∈ ([1, 2, 4, 8] : List Nat) ∧
        ∀ a, ¬ (addr.toNat ≤ a ∧ a < addr.toNat + n) → t.mem.byte a = s.mem.byte a)

/-- R29, R31: no step reads the loader's cursor, nor the report of the step before: two states that differ only there
step alike, and the cursor stays what it was. (The report is a field of the model's State, log entry 5.) -/
def Obligations.StepIgnoresReportAndCursor : Prop :=
  ∀ (s : State) e c,
    (∀ t, step s = .next t → step { s with exit := e, curAlloc := c } = .next { t with curAlloc := c }) ∧
    (∀ f, step s = .fault f → step { s with exit := e, curAlloc := c } = .fault f)

/-- R55: a store is seen by every later fetch: after a step that stores, the word fetched at any pc holds, byte by
byte, the stored bytes where the fetch overlaps them and the old bytes elsewhere; and the storing step itself ran
the word fetched before the store. -/
def Obligations.StoresAreSeenByLaterFetches : Prop :=
  ∀ (s t : State) (w : InstrWord) (i : Instr) (addr : Word) (n : Nat) (rs2 : Reg) (pc' : Word), s.wf →
    fetchWord s = .ok w → decodeWord w = .ok i → storeAccess i s = some (addr, n) → storeData i = some rs2 →
    step s = .next t → pc'.toNat + 4 ≤ s.mem.size →
    ∃ w', fetchWord { t with pc := pc' } = .ok w' ∧ ∀ k < 4, w'.toNat / 2 ^ (8 * k) % 256 =
      if addr.toNat ≤ pc'.toNat + k ∧ pc'.toNat + k < addr.toNat + n
      then (s.readReg rs2).toNat / 2 ^ (8 * (pc'.toNat + k - addr.toNat)) % 256
      else (s.mem.byte (pc'.toNat + k)).toNat

/-- The round trip of `95_test_vectors.md` S6: SW then LW at the same address gives the sign-extended low word, SD then
LD gives the register. -/
def Obligations.LoadAfterStoreGivesTheValue : Prop :=
  ∀ (s : State) (rs1 rs2 rd rs1' : Reg) (imm imm' : BitVec 12), s.wf → rd ≠ 0 →
    ((effectiveAddress s rs1 imm).toNat + 4 ≤ s.mem.size → ∃ t, exec (.sw rs1 rs2 imm) s = .next t ∧
      (effectiveAddress t rs1' imm' = effectiveAddress s rs1 imm → ∃ u, exec (.lw rd rs1' imm') t = .next u ∧
        (u.readReg rd).toInt = signed 32 ((s.readReg rs2).toNat % 2 ^ 32))) ∧
    ((effectiveAddress s rs1 imm).toNat + 8 ≤ s.mem.size → ∃ t, exec (.sd rs1 rs2 imm) s = .next t ∧
      (effectiveAddress t rs1' imm' = effectiveAddress s rs1 imm → ∃ u, exec (.ld rd rs1' imm') t = .next u ∧
        u.readReg rd = s.readReg rs2))

/-! ## Boot and the host -/

/-- R253, R254: loading a segment, and the allocator. -/
def Obligations.LoadSegmentAndAlloc : Prop :=
  (∀ (s : State) (g : Segment), s.wf →
    (g.loadAddr = 0 → loadSegment s g = .ok s) ∧
    (g.loadAddr ≠ 0 → g.loadAddr.toNat + g.payload.length ≤ s.mem.size → ∃ t, loadSegment s g = .ok t ∧
      t.x = s.x ∧ t.pc = s.pc ∧ t.exit = s.exit ∧ t.mem.size = s.mem.size ∧
      t.curAlloc.toNat = max s.curAlloc.toNat (g.loadAddr.toNat + g.payload.length) ∧
      ∀ a, t.mem.byte a = if g.loadAddr.toNat ≤ a ∧ a < g.loadAddr.toNat + g.payload.length
        then g.payload.getD (a - g.loadAddr.toNat) 0 else s.mem.byte a) ∧
    (g.loadAddr ≠ 0 → s.mem.size < g.loadAddr.toNat + g.payload.length →
      loadSegment s g = .error (.boundsViolation g.loadAddr g.payload.length))) ∧
  (∀ s g gs, loadImage s (g :: gs) = (loadSegment s g).bind fun t => loadImage t gs) ∧
  (∀ s size, alloc s size = (s.curAlloc, { s with curAlloc := s.curAlloc + size }))

/-- R32: the state when the first step begins, for every choice of the open parameters: x1..x31 = X_RESET, pc = ENTRY,
every byte as IMAGE leaves it over zeros, the cursor at the largest end address, nothing reported yet; and the boot
succeeds exactly when every segment that is not skipped fits. (The cursor's first value and which of two overlapping
segments wins are the spec's own decisions D22, D29.) -/
def Obligations.BootGivesTheResetState : Prop :=
  ∀ p : Params, p.sizeOk →
    ((∃ s, boot p = .ok s) ↔ ∀ g ∈ p.image, fits p.memSize g) ∧
    ∀ s, boot p = .ok s → s.wf ∧ s.mem.size = p.memSize ∧ s.pc = p.entry ∧ s.x = p.xReset ∧ s.exit = none ∧
      s.curAlloc.toNat = imageEnd p.image ∧ ∀ a, s.mem.byte a = imageByte p.image a

/-- What the host may write between steps (R232), by the model's own operations beside the step (log entry 7): the pc
alone; one register alone, a write to x0 discarded; memory alone, under the bounds contract of R45: exactly the bytes
given, or nothing at all. The loader's cursor and the report of the last step (a field of the model's State, log entry 5)
stay as they are, and the state stays well formed. -/
def Obligations.HostWritesObeyTheContract : Prop :=
  ∀ s : State, s.wf →
    (∀ v, (s.hostWritePc v).pc = v ∧ SameRegs s (s.hostWritePc v) ∧ SameMemory s (s.hostWritePc v) ∧
      (s.hostWritePc v).exit = s.exit ∧ (s.hostWritePc v).curAlloc = s.curAlloc ∧ (s.hostWritePc v).wf) ∧
    (∀ r v, (s.writeReg r v).wf ∧ WritesReg s (s.writeReg r v) r v ∧ SameMemory s (s.writeReg r v) ∧
      (s.writeReg r v).pc = s.pc ∧ (s.writeReg r v).exit = s.exit ∧ (s.writeReg r v).curAlloc = s.curAlloc) ∧
    ∀ (addr : Word) (bs : List Byte),
      (addr.toNat + bs.length ≤ s.mem.size → ∃ t, s.hostWriteMem addr bs = .ok t ∧ t.wf ∧ SameRegs s t ∧ t.pc = s.pc ∧
        t.exit = s.exit ∧ t.curAlloc = s.curAlloc ∧ t.mem.size = s.mem.size ∧ ∀ a, t.mem.byte a =
          if addr.toNat ≤ a ∧ a < addr.toNat + bs.length then bs.getD (a - addr.toNat) 0 else s.mem.byte a) ∧
      (s.mem.size < addr.toNat + bs.length → s.hostWriteMem addr bs = .error (.boundsViolation addr bs.length))

/-- R233: the core stays on the ECALL; after the host writes pc + 4 the next step fetches the instruction after it,
from the same registers and memory. (That the core never advances is the spec's own decision D27. That the host's resume
leaves nothing reported, `exit = none`, is no rule's: it is the model's choice, log entry 5.) -/
def Obligations.HostResumesPastTheEcall : Prop :=
  ∀ s t, step s = .next t → t.exit = some .syscall →
    t.pc = s.pc ∧ t.resumePastSyscall.pc = s.pc + 4 ∧ t.resumePastSyscall.exit = none ∧
    t.resumePastSyscall.x = s.x ∧ t.resumePastSyscall.mem = s.mem ∧ t.resumePastSyscall.curAlloc = s.curAlloc

/-- R121: a step reports `stepped`, one of the exits, or the fatal fault, and nothing else; after an exit a further step
starts from the unchanged state and repeats the same exit. In the minimal driver the first exit ends the run: with the
bound `k` of its caller it ends at the exit `e` exactly when, after fewer than `k` steps that all report `stepped`, a step
reports `e`; it is dead exactly when, after fewer than `k` such steps, a step ends in the fatal fault; its bound ends it
exactly when all `k` steps report `stepped`. (The report is a field of the model's State, log entry 5.) -/
def Obligations.ExitsRepeatAndEndTheMinimalDriver : Prop :=
  (∀ s, (∃ t, step s = .next t) ∨ ∃ addr n, step s = .fault (.boundsViolation addr n)) ∧
  (∀ s t, step s = .next t → t.exit ≠ none → step t = .next t) ∧
  ∀ k s,
    (∀ e t, drive k s = .exited e t ↔ ∃ j < k, ∃ u, RunsTo j s u ∧ step u = .next t ∧ t.exit = some e) ∧
    (∀ f, drive k s = .dead f ↔ ∃ j < k, ∃ u, RunsTo j s u ∧ step u = .fault f) ∧
    (∀ t, drive k s = .outOfFuel t ↔ RunsTo k s t) ∧
    (∀ r, drive k s ≠ .refused r)
end

