-- ==== Sys2Proof/Laws/State.lean ====
section
/-! SUPPORT. One lemma per field per update of State, and what each update leaves of the register file, so that no
proof unfolds a record update. -/

namespace Sys2Proof.Laws

open Sys2Proof.Machine

variable (s : State) (r q : Reg) (v : Word) (m : Memory) (e : Option VmExit)

/-! ## `writeReg` -/

@[simp] theorem writeReg_zero : s.writeReg 0 v = s := rfl
@[simp] theorem writeReg_pc : (s.writeReg r v).pc = s.pc := by unfold State.writeReg; split <;> rfl
@[simp] theorem writeReg_mem : (s.writeReg r v).mem = s.mem := by unfold State.writeReg; split <;> rfl
@[simp] theorem writeReg_exit : (s.writeReg r v).exit = s.exit := by unfold State.writeReg; split <;> rfl
@[simp] theorem writeReg_curAlloc : (s.writeReg r v).curAlloc = s.curAlloc := by unfold State.writeReg; split <;> rfl

/-! ## `retire` -/

@[simp] theorem retire_x : (s.retire v).x = s.x := rfl
@[simp] theorem retire_pc : (s.retire v).pc = v := rfl
@[simp] theorem retire_mem : (s.retire v).mem = s.mem := rfl
@[simp] theorem retire_exit : (s.retire v).exit = none := rfl
@[simp] theorem retire_curAlloc : (s.retire v).curAlloc = s.curAlloc := rfl
@[simp] theorem retire_readReg : (s.retire v).readReg r = s.readReg r := rfl

/-! ## `resumeAt`, `resumePastSyscall`, `hostWritePc` -/

@[simp] theorem resumeAt_x : (s.resumeAt v).x = s.x := rfl
@[simp] theorem resumeAt_pc : (s.resumeAt v).pc = v := rfl
@[simp] theorem resumeAt_mem : (s.resumeAt v).mem = s.mem := rfl
@[simp] theorem resumeAt_exit : (s.resumeAt v).exit = none := rfl
@[simp] theorem resumeAt_curAlloc : (s.resumeAt v).curAlloc = s.curAlloc := rfl
@[simp] theorem resumeAt_readReg : (s.resumeAt v).readReg r = s.readReg r := rfl
@[simp] theorem hostWritePc_x : (s.hostWritePc v).x = s.x := rfl
@[simp] theorem hostWritePc_pc : (s.hostWritePc v).pc = v := rfl
@[simp] theorem hostWritePc_mem : (s.hostWritePc v).mem = s.mem := rfl
@[simp] theorem hostWritePc_exit : (s.hostWritePc v).exit = s.exit := rfl
@[simp] theorem hostWritePc_curAlloc : (s.hostWritePc v).curAlloc = s.curAlloc := rfl
@[simp] theorem hostWritePc_readReg : (s.hostWritePc v).readReg r = s.readReg r := rfl

/-! ## Plain field updates -/

@[simp] theorem withMem_readReg : State.readReg { s with mem := m } r = s.readReg r := rfl
@[simp] theorem withExit_readReg : State.readReg { s with exit := e } r = s.readReg r := rfl
@[simp] theorem withPc_readReg : State.readReg { s with pc := v } r = s.readReg r := rfl
@[simp] theorem withCurAlloc_readReg : State.readReg { s with curAlloc := v } r = s.readReg r := rfl
@[simp] theorem withMem_nextPc : State.nextPc { s with mem := m } = s.nextPc := rfl

/-! ## The register file (R20, R21) -/

/-- x0 reads 0 in every state. -/
@[simp] theorem readReg_zero : s.readReg 0 = 0 := rfl

/-- What a read gives after a write: the value written, unless the register is another one or x0. -/
theorem readReg_writeReg : (s.writeReg r v).readReg q = if q = r ∧ r ≠ 0 then v else s.readReg q := by
  by_cases hr : r = 0
  · simp [State.writeReg, hr]
  · by_cases hq : q = 0
    · subst hq
      simp [Ne.symm hr]
    · have hr' : r.val ≠ 0 := fun h => hr (Fin.ext h)
      have hq' : q.val ≠ 0 := fun h => hq (Fin.ext h)
      simp only [State.writeReg, State.readReg, hr, hq, if_false, ne_eq, not_false_eq_true, and_true]
      rw [Vector.getElem_set]
      by_cases hqr : q = r
      · subst hqr
        simp
      · have hv : r.val - 1 ≠ q.val - 1 := fun h => hqr (Fin.ext (by omega))
        simp [hv, hqr]

theorem readReg_writeReg_same (hr : r ≠ 0) : (s.writeReg r v).readReg r = v := by
  simp [readReg_writeReg, hr]

theorem readReg_writeReg_other (h : q ≠ r) : (s.writeReg r v).readReg q = s.readReg q := by
  simp [readReg_writeReg, h]

/-- A register file is known from its reads: x0 is no storage. -/
theorem x_eq_of_readReg {s t : State} (h : ∀ r, t.readReg r = s.readReg r) : t.x = s.x := by
  refine Vector.ext fun i hi => ?_
  have := h ⟨i + 1, by omega⟩
  simpa [State.readReg, Fin.ext_iff] using this

end Sys2Proof.Laws
end

