-- ==== Sys2Proof/Laws/Memory.lean ====
section
/-! SUPPORT. The laws of memory: a read after a write, that every operation keeps the canonical form and the size,
that equal memories are equal data, and what the bounds-checked primitives answer (R42, R43, R45). -/

namespace Sys2Proof.Laws

open Sys2Proof.Machine

/-! ## Cells -/

/-- The canonical form of the cells alone: addresses rising, no cell holding an unlisted byte. -/
abbrev cellsCanonical (cells : List Host.Cell) : Prop :=
  cells.Pairwise (fun c d => c.1 < d.1) ∧ ∀ c ∈ cells, c.2 ≠ unlistedByte

/-- An address below every cell reads as unlisted. -/
theorem readCells_below {cells : List Host.Cell} {a : Nat} (h : ∀ c ∈ cells, a < c.1) :
    readCells cells a = unlistedByte := by
  induction cells with
  | nil => rfl
  | cons c rest ih =>
    obtain ⟨k, v⟩ := c
    have hk : a < k := h (k, v) (by simp)
    have : a ≠ k := by omega
    simp only [readCells, this, if_false]
    exact ih fun d hd => h d (List.mem_cons_of_mem _ hd)

theorem readCells_consCell {rest : List Host.Cell} {a : Nat} {b : Byte} (h : ∀ c ∈ rest, a < c.1) (k : Nat) :
    readCells (consCell a b rest) k = if k = a then b else readCells rest k := by
  unfold consCell
  split
  · rename_i hb
    split
    · rename_i hk
      rw [hk, readCells_below h, hb]
    · rfl
  · rfl

/-- Read after write, over cells in rising order. -/
theorem readCells_writeCells {cells : List Host.Cell} (h : cells.Pairwise (fun c d => c.1 < d.1)) (a : Nat) (b : Byte)
    (k : Nat) : readCells (writeCells cells a b) k = if k = a then b else readCells cells k := by
  induction cells with
  | nil => exact readCells_consCell (by simp) k
  | cons c rest ih =>
    obtain ⟨j, v⟩ := c
    obtain ⟨hj, hrest⟩ := List.pairwise_cons.1 h
    simp only [writeCells]
    split
    · rename_i haj
      refine readCells_consCell (fun d hd => ?_) k
      rcases List.mem_cons.1 hd with rfl | hd
      · exact haj
      · exact Nat.lt_trans haj (hj d hd)
    · split
      · rename_i haj
        subst haj
        rw [readCells_consCell hj]
        simp only [readCells]
        split <;> rfl
      · rename_i hne
        simp only [readCells, ih hrest]
        by_cases hkj : k = j
        · have : k ≠ a := by omega
          simp [hkj, Ne.symm hne]
        · simp [hkj]

/-- A write puts no cell anywhere but at its address. -/
theorem mem_writeCells {cells : List Host.Cell} {a : Nat} {b : Byte} {c : Host.Cell} (h : c ∈ writeCells cells a b) :
    (c = (a, b) ∧ b ≠ unlistedByte) ∨ c ∈ cells := by
  have cons : ∀ rest : List Host.Cell, c ∈ consCell a b rest → (c = (a, b) ∧ b ≠ unlistedByte) ∨ c ∈ rest := by
    intro rest hc
    unfold consCell at hc
    split at hc
    · exact .inr hc
    · rename_i hb
      rcases List.mem_cons.1 hc with rfl | hc
      · exact .inl ⟨rfl, hb⟩
      · exact .inr hc
  induction cells with
  | nil => exact cons [] h
  | cons d rest ih =>
    obtain ⟨j, v⟩ := d
    simp only [writeCells] at h
    split at h
    · exact cons _ h
    · split at h
      · exact (cons _ h).imp_right (List.mem_cons_of_mem _)
      · rcases List.mem_cons.1 h with rfl | h
        · exact .inr (by simp)
        · exact (ih h).imp_right (List.mem_cons_of_mem _)

/-- Writing keeps the canonical form of the cells. -/
theorem writeCells_canonical {cells : List Host.Cell} (h : cellsCanonical cells) (a : Nat) (b : Byte) :
    cellsCanonical (writeCells cells a b) := by
  refine ⟨?_, fun c hc => ?_⟩
  · have cons : ∀ rest : List Host.Cell, rest.Pairwise (fun c d => c.1 < d.1) → (∀ c ∈ rest, a < c.1) →
        (consCell a b rest).Pairwise (fun c d => c.1 < d.1) := by
      intro rest hp hlt
      unfold consCell
      split
      · exact hp
      · exact List.pairwise_cons.2 ⟨hlt, hp⟩
    obtain ⟨hp, -⟩ := h
    induction cells with
    | nil => exact cons [] .nil (by simp)
    | cons d rest ih =>
      obtain ⟨j, v⟩ := d
      obtain ⟨hj, hrest⟩ := List.pairwise_cons.1 hp
      simp only [writeCells]
      split
      · rename_i haj
        refine cons _ hp fun c hc => ?_
        rcases List.mem_cons.1 hc with rfl | hc
        · exact haj
        · exact Nat.lt_trans haj (hj c hc)
      · rename_i hge
        split
        · rename_i heq
          exact cons _ hrest (heq ▸ hj)
        · rename_i hne
          refine List.pairwise_cons.2 ⟨fun c hc => ?_, ih hrest⟩
          rcases mem_writeCells hc with ⟨rfl, -⟩ | hc
          · show j < a
            omega
          · exact hj c hc
  · rcases mem_writeCells hc with ⟨rfl, hb⟩ | hc
    · exact hb
    · exact h.2 c hc

/-- Cells in canonical form are known from what every address reads as. -/
theorem cells_eq_of_read {c d : List Host.Cell} (hc : cellsCanonical c) (hd : cellsCanonical d)
    (h : ∀ a, readCells c a = readCells d a) : c = d := by
  induction c generalizing d with
  | nil =>
    cases d with
    | nil => rfl
    | cons e rest =>
      have := h e.1
      obtain ⟨k, v⟩ := e
      simp only [readCells, if_true] at this
      exact absurd this.symm (hd.2 (k, v) (by simp))
  | cons e rest ih =>
    obtain ⟨k, v⟩ := e
    obtain ⟨hk, hrest⟩ := List.pairwise_cons.1 hc.1
    have hv := hc.2 (k, v) (by simp)
    cases d with
    | nil =>
      have := h k
      simp only [readCells, if_true] at this
      exact absurd this hv
    | cons f rest' =>
      obtain ⟨j, w⟩ := f
      obtain ⟨hj, hrest'⟩ := List.pairwise_cons.1 hd.1
      have hw := hd.2 (j, w) (by simp)
      have hkj : k = j := by
        rcases Nat.lt_trichotomy k j with hlt | heq | hlt
        · have := h k
          rw [readCells_below (cells := (j, w) :: rest') (a := k)] at this
          · simp only [readCells, if_true] at this
            exact absurd this hv
          · intro g hg
            rcases List.mem_cons.1 hg with rfl | hg
            · exact hlt
            · exact Nat.lt_trans hlt (hj g hg)
        · exact heq
        · have := h j
          rw [readCells_below (cells := (k, v) :: rest) (a := j)] at this
          · simp only [readCells, if_true] at this
            exact absurd this.symm hw
          · intro g hg
            rcases List.mem_cons.1 hg with rfl | hg
            · exact hlt
            · exact Nat.lt_trans hlt (hk g hg)
      subst hkj
      have hvw : v = w := by simpa [readCells] using h k
      subst hvw
      congr 1
      refine ih ⟨hrest, fun g hg => hc.2 g (List.mem_cons_of_mem _ hg)⟩
        ⟨hrest', fun g hg => hd.2 g (List.mem_cons_of_mem _ hg)⟩ fun a => ?_
      by_cases ha : a = k
      · subst ha
        rw [readCells_below hk, readCells_below hj]
      · simpa [readCells, ha] using h a

/-! ## Memory -/

@[simp] theorem setByte_size (m : Memory) (a : Nat) (b : Byte) : (m.setByte a b).size = m.size := rfl

@[simp] theorem setBytes_size (m : Memory) (a : Nat) (bs : List Byte) : (m.setBytes a bs).size = m.size := by
  induction bs generalizing m a with
  | nil => rfl
  | cons b rest ih => simp [Memory.setBytes, ih]

theorem wf_canonical {m : Memory} (h : m.wf) : cellsCanonical m.cells := ⟨h.1, fun c hc => (h.2 c hc).1⟩

/-- Read after write of one byte. -/
theorem byte_setByte {m : Memory} (h : m.wf) (a k : Nat) (b : Byte) :
    (m.setByte a b).byte k = if k = a then b else m.byte k := readCells_writeCells h.1 a b k

/-- A write of a byte inside memory keeps the canonical form. -/
theorem setByte_wf {m : Memory} (h : m.wf) {a : Nat} (ha : a < m.size) (b : Byte) : (m.setByte a b).wf := by
  have hc := writeCells_canonical (wf_canonical h) a b
  refine ⟨hc.1, fun c hm => ⟨hc.2 c hm, ?_⟩⟩
  rcases mem_writeCells hm with ⟨rfl, -⟩ | hm
  · exact ha
  · exact (h.2 c hm).2

/-- A write of bytes inside memory keeps the canonical form. -/
theorem setBytes_wf {m : Memory} (h : m.wf) {a : Nat} {bs : List Byte} (ha : a + bs.length ≤ m.size) :
    (m.setBytes a bs).wf := by
  induction bs generalizing m a with
  | nil => exact h
  | cons b rest ih =>
    simp only [List.length_cons] at ha
    exact ih (setByte_wf h (by omega) b) (by simpa using by omega)

/-- What a byte reads as after a list of bytes was written inside memory. -/
theorem byte_setBytes {m : Memory} (h : m.wf) {a : Nat} {bs : List Byte} (ha : a + bs.length ≤ m.size) (k : Nat) :
    (m.setBytes a bs).byte k = if a ≤ k ∧ k < a + bs.length then bs.getD (k - a) 0 else m.byte k := by
  induction bs generalizing m a with
  | nil =>
    have : ¬ (a ≤ k ∧ k < a + 0) := by omega
    simp only [List.length_nil, this, if_false]
    rfl
  | cons b rest ih =>
    simp only [List.length_cons] at ha ⊢
    have := ih (setByte_wf h (a := a) (by omega) b) (a := a + 1) (by simpa using by omega)
    simp only [Memory.setBytes, this, byte_setByte h]
    by_cases hk : k = a
    · subst hk
      have h1 : ¬ (k + 1 ≤ k ∧ k < k + 1 + rest.length) := by omega
      have h2 : k ≤ k ∧ k < k + (rest.length + 1) := by omega
      rw [if_neg h1, if_pos h2, if_pos rfl]
      simp
    · by_cases hin : a + 1 ≤ k ∧ k < a + 1 + rest.length
      · have h2 : a ≤ k ∧ k < a + (rest.length + 1) := by omega
        have h3 : k - a = (k - (a + 1)) + 1 := by omega
        rw [if_pos hin, if_pos h2, h3]
        simp
      · have h2 : ¬ (a ≤ k ∧ k < a + (rest.length + 1)) := by omega
        rw [if_neg hin, if_neg h2, if_neg hk]

/-- Equal memories are equal data. -/
theorem memory_eq_of_byte {m n : Memory} (hm : m.wf) (hn : n.wf) (hs : m.size = n.size)
    (h : ∀ a, m.byte a = n.byte a) : m = n := by
  have := cells_eq_of_read (wf_canonical hm) (wf_canonical hn) h
  cases m
  cases n
  simp_all

/-! ## The bounds check and the primitives -/

theorem inside_iff (m : Memory) (addr : Word) (n : Nat) : m.inside addr n = true ↔ addr.toNat + n ≤ m.size := by
  simp [Memory.inside]

@[simp] theorem leBytes_length (n : Nat) (v : Word) : (leBytes n v).length = n := by
  induction n generalizing v with
  | zero => rfl
  | succ n ih => simp [leBytes, ih]

@[simp] theorem bytes_length (m : Memory) (a n : Nat) : (m.bytes a n).length = n := by
  induction n generalizing a with
  | zero => rfl
  | succ n ih => simp [Memory.bytes, ih]

theorem memRead_inside {m : Memory} {addr : Word} {n : Nat} (h : addr.toNat + n ≤ m.size) :
    memRead m addr n = .ok (leValue (m.bytes addr.toNat n)) := by
  simp [memRead, Memory.read, (inside_iff m addr n).2 h]

theorem memRead_outside {m : Memory} {addr : Word} {n : Nat} (h : m.size < addr.toNat + n) :
    memRead m addr n = .error (.boundsViolation addr n) := by
  have : m.inside addr n = false := by simpa [Memory.inside] using h
  simp [memRead, Memory.read, this]

theorem write_inside {m : Memory} {addr : Word} {bs : List Byte} (h : addr.toNat + bs.length ≤ m.size) :
    m.write addr bs = .ok (m.setBytes addr.toNat bs) := by
  simp [Memory.write, (inside_iff m addr _).2 h]

theorem write_outside {m : Memory} {addr : Word} {bs : List Byte} (h : m.size < addr.toNat + bs.length) :
    m.write addr bs = .error (.boundsViolation addr bs.length) := by
  have : m.inside addr bs.length = false := by simpa [Memory.inside] using h
  simp [Memory.write, this]

theorem memWrite_inside {m : Memory} {addr : Word} {n : Nat} (v : Word) (h : addr.toNat + n ≤ m.size) :
    memWrite m addr n v = .ok (m.setBytes addr.toNat (leBytes n v)) := write_inside (by simpa using h)

theorem memWrite_outside {m : Memory} {addr : Word} {n : Nat} (v : Word) (h : m.size < addr.toNat + n) :
    memWrite m addr n v = .error (.boundsViolation addr n) := by
  have := write_outside (m := m) (addr := addr) (bs := leBytes n v) (by simpa using h)
  simpa [memWrite] using this

/-- Everything a successful write can have done. -/
theorem write_ok {m m' : Memory} {addr : Word} {bs : List Byte} (h : m.write addr bs = .ok m') :
    addr.toNat + bs.length ≤ m.size ∧ m' = m.setBytes addr.toNat bs := by
  by_cases hb : addr.toNat + bs.length ≤ m.size
  · rw [write_inside hb] at h
    exact ⟨hb, (Except.ok.inj h).symm⟩
  · rw [write_outside (by omega)] at h
    cases h

/-- A successful write keeps the canonical form and the size. -/
theorem write_ok_wf {m m' : Memory} {addr : Word} {bs : List Byte} (hm : m.wf) (h : m.write addr bs = .ok m') :
    m'.wf ∧ m'.size = m.size := by
  obtain ⟨hb, rfl⟩ := write_ok h
  exact ⟨setBytes_wf hm hb, setBytes_size m _ _⟩

end Sys2Proof.Laws
end

