-- ==== Sys2Proof/Laws/Bytes.lean ====
section
/-! SUPPORT. Bytes and little-endian values (R41 to R43): the bytes of a value, the value of bytes, and what reading back
the bytes just written gives. -/

namespace Sys2Proof.Laws

open Sys2Proof.Machine

/-- Byte i of a value is v[8i+7 : 8i] (R43). -/
theorem leBytes_getD {n k : Nat} (hk : k < n) (v : Word) : (leBytes n v).getD k 0 = v.extractLsb' (8 * k) 8 := by
  induction n generalizing k v with
  | zero => omega
  | succ n ih =>
    cases k with
    | zero => rfl
    | succ k =>
      have := ih (k := k) (by omega) (v >>> 8)
      simp only [leBytes, List.getD_cons_succ, this]
      ext i hi
      have : 8 + (8 * k + i) = 8 * (k + 1) + i := by omega
      simp [BitVec.getElem_extractLsb', this]

/-- The same as a number. -/
theorem leBytes_getD_toNat {n k : Nat} (hk : k < n) (v : Word) :
    ((leBytes n v).getD k 0).toNat = v.toNat / 2 ^ (8 * k) % 256 := by
  rw [leBytes_getD hk]
  simp [BitVec.extractLsb'_toNat, Nat.shiftRight_eq_div_pow]

theorem bytes_getD (m : Memory) {a n k : Nat} (hk : k < n) : (m.bytes a n).getD k 0 = m.byte (a + k) := by
  induction n generalizing a k with
  | zero => omega
  | succ n ih =>
    cases k with
    | zero => rfl
    | succ k =>
      have := ih (a := a + 1) (k := k) (by omega)
      simp only [Memory.bytes, List.getD_cons_succ, this]
      congr 1
      omega

/-- The bytes a list of bytes was just written over are that list. -/
theorem bytes_setBytes {m : Memory} (h : m.wf) {a : Nat} {bs : List Byte} (ha : a + bs.length ≤ m.size) :
    (m.setBytes a bs).bytes a bs.length = bs := by
  refine List.ext_getElem (by simp) fun k h1 h2 => ?_
  have hk : k < bs.length := h2
  have hb := bytes_getD (m.setBytes a bs) (a := a) hk
  rw [byte_setBytes h ha, if_pos (by omega)] at hb
  simpa [List.getD_eq_getElem?_getD, h2, hk] using hb

/-- Bytes spell a number below 256 to the power of their count. -/
theorem leValue_lt (bs : List Byte) : leValue bs < 256 ^ bs.length := by
  induction bs with
  | nil => simp [leValue]
  | cons b rest ih =>
    simp only [leValue, List.length_cons, Nat.pow_succ]
    have := b.isLt
    omega

/-- Byte k of the number that bytes spell is byte k of the list. -/
theorem leValue_byte {bs : List Byte} {k : Nat} (hk : k < bs.length) :
    leValue bs / 2 ^ (8 * k) % 256 = (bs.getD k 0).toNat := by
  induction bs generalizing k with
  | nil => simp at hk
  | cons b rest ih =>
    have hb := b.isLt
    cases k with
    | zero =>
      simp only [leValue, List.getD_cons_zero, Nat.mul_zero, Nat.pow_zero, Nat.div_one]
      omega
    | succ k =>
      have := ih (k := k) (by simpa using hk)
      have h256 : 2 ^ (8 * (k + 1)) = 256 * 2 ^ (8 * k) := by
        rw [Nat.mul_succ, Nat.add_comm, Nat.pow_add]
      have hdiv : leValue (b :: rest) / 256 = leValue rest := by
        simp only [leValue]
        omega
      rw [h256, ← Nat.div_div_eq_div_mul, hdiv, this, List.getD_cons_succ]

/-- The low bytes of a value spell it modulo 256 to the power of their count. -/
theorem leValue_leBytes (n : Nat) (v : Word) : leValue (leBytes n v) = v.toNat % 2 ^ (8 * n) := by
  induction n generalizing v with
  | zero => simp [leBytes, leValue, Nat.mod_one]
  | succ n ih =>
    have hv : (v >>> 8).toNat = v.toNat / 256 := by simp [Nat.shiftRight_eq_div_pow]
    have h0 : (v.extractLsb' 0 8).toNat = v.toNat % 256 := by simp [BitVec.extractLsb'_toNat]
    have hp : 2 ^ (8 * (n + 1)) = 256 * 2 ^ (8 * n) := by
      rw [Nat.mul_succ, Nat.add_comm, Nat.pow_add]
    rw [leBytes, leValue, ih, hv, h0, hp, Nat.mod_mul]

/-- A word made of four bytes is the number they spell, cut to 32 bits: the fetch and the byte decoder agree (R70). -/
theorem ofNat_leValue_four (b0 b1 b2 b3 : Byte) :
    BitVec.ofNat 32 (leValue [b0, b1, b2, b3]) = wordOfBytes b0 b1 b2 b3 := by
  have h0 := b0.isLt
  have h1 := b1.isLt
  have h2 := b2.isLt
  have h3 := b3.isLt
  apply BitVec.eq_of_toNat_eq
  simp only [leValue, wordOfBytes, BitVec.toNat_ofNat, BitVec.toNat_append]
  rw [← Nat.shiftLeft_add_eq_or_of_lt h2, ← Nat.shiftLeft_add_eq_or_of_lt h1, ← Nat.shiftLeft_add_eq_or_of_lt h0]
  simp only [Nat.shiftLeft_eq]
  omega

/-- The bytes of a word spell it. -/
theorem wordOfBytes_bytesOfWord (w : InstrWord) :
    wordOfBytes (w.extractLsb' 0 8) (w.extractLsb' 8 8) (w.extractLsb' 16 8) (w.extractLsb' 24 8) = w := by
  apply BitVec.eq_of_toNat_eq
  have hw := w.isLt
  rw [← ofNat_leValue_four]
  simp only [leValue, BitVec.toNat_ofNat, BitVec.extractLsb'_toNat, Nat.shiftRight_eq_div_pow]
  omega

end Sys2Proof.Laws
end

