-- ==== Sys2Proof/Laws/Exec.lean ====
section
/-! SUPPORT. What each shared operation can do, said once, and the shape of every execute arm: an instruction finishes
a register, links and jumps, branches, loads, stores, or takes an exit, and nothing else. -/

namespace Sys2Proof.Laws

open Sys2Proof.Machine

/-! ## The shared operations -/

theorem finish_eq (rd : Reg) (v : Word) (s : State) :
    finish rd v s = .next ((s.writeReg rd v).retire (s.pc + 4)) := rfl

theorem linkAndJump_eq (rd : Reg) (target : Word) (s : State) :
    linkAndJump rd target s = .next ((s.writeReg rd (s.pc + 4)).retire target) := rfl

theorem branch_eq (cond : Word → Word → Bool) (rs1 rs2 : Reg) (imm : BitVec 13) (s : State) :
    branch cond rs1 rs2 imm s =
      .next (s.retire (if cond (s.readReg rs1) (s.readReg rs2) then s.pc + imm13 imm else s.pc + 4)) := rfl

theorem takeExit_eq (e : VmExit) (s : State) : takeExit e s = .next { s with exit := some e } := rfl

theorem finishWord_eq (rd : Reg) (r : BitVec 32) (s : State) : finishWord rd r s = finish rd (sext32 r) s := rfl

theorem load_inside {n : Nat} (ext : Nat → Word) (rd : Reg) {rs1 : Reg} {imm : BitVec 12} {s : State}
    (h : (effectiveAddress s rs1 imm).toNat + n ≤ s.mem.size) :
    load n ext rd rs1 imm s =
      finish rd (ext (leValue (s.mem.bytes (effectiveAddress s rs1 imm).toNat n))) s := by
  simp only [load, memRead_inside h]

theorem load_outside {n : Nat} (ext : Nat → Word) (rd : Reg) {rs1 : Reg} {imm : BitVec 12} {s : State}
    (h : s.mem.size < (effectiveAddress s rs1 imm).toNat + n) :
    load n ext rd rs1 imm s = .fault (.boundsViolation (effectiveAddress s rs1 imm) n) := by
  simp only [load, memRead_outside h]

theorem store_inside {n : Nat} {rs1 : Reg} (rs2 : Reg) {imm : BitVec 12} {s : State}
    (h : (effectiveAddress s rs1 imm).toNat + n ≤ s.mem.size) :
    store n rs1 rs2 imm s = .next (State.retire
      { s with mem := s.mem.setBytes (effectiveAddress s rs1 imm).toNat (leBytes n (s.readReg rs2)) } (s.pc + 4)) := by
  simp only [store, memWrite_inside _ h]
  rfl

theorem store_outside {n : Nat} {rs1 : Reg} (rs2 : Reg) {imm : BitVec 12} {s : State}
    (h : s.mem.size < (effectiveAddress s rs1 imm).toNat + n) :
    store n rs1 rs2 imm s = .fault (.boundsViolation (effectiveAddress s rs1 imm) n) := by
  simp only [store, memWrite_outside _ h]

/-- Everything a load that completes can have done. -/
theorem load_next {n : Nat} {ext : Nat → Word} {rd rs1 : Reg} {imm : BitVec 12} {s t : State}
    (h : load n ext rd rs1 imm s = .next t) :
    (effectiveAddress s rs1 imm).toNat + n ≤ s.mem.size ∧ ∃ v, t = (s.writeReg rd v).retire (s.pc + 4) := by
  by_cases hb : (effectiveAddress s rs1 imm).toNat + n ≤ s.mem.size
  · rw [load_inside ext rd hb, finish_eq] at h
    exact ⟨hb, _, (Host.Outcome.next.inj h).symm⟩
  · rw [load_outside ext rd (by omega)] at h
    cases h

/-- Everything a store that completes can have done. -/
theorem store_next {n : Nat} {rs1 rs2 : Reg} {imm : BitVec 12} {s t : State} (h : store n rs1 rs2 imm s = .next t) :
    (effectiveAddress s rs1 imm).toNat + n ≤ s.mem.size ∧ t = State.retire
      { s with mem := s.mem.setBytes (effectiveAddress s rs1 imm).toNat (leBytes n (s.readReg rs2)) } (s.pc + 4) := by
  by_cases hb : (effectiveAddress s rs1 imm).toNat + n ≤ s.mem.size
  · rw [store_inside rs2 hb] at h
    exact ⟨hb, (Host.Outcome.next.inj h).symm⟩
  · rw [store_outside rs2 (by omega)] at h
    cases h

/-! ## The shape of every arm -/

/-- How an execute arm ends, one case for each shared operation. -/
inductive Shape (s : State) : Result → Prop where
  | finishes (rd : Reg) (v : Word) : Shape s (finish rd v s)
  | jumps (rd : Reg) (target : Word) : Shape s (linkAndJump rd target s)
  | branches (cond : Word → Word → Bool) (rs1 rs2 : Reg) (imm : BitVec 13) : Shape s (branch cond rs1 rs2 imm s)
  | loads (n : Nat) (ext : Nat → Word) (rd rs1 : Reg) (imm : BitVec 12) : Shape s (load n ext rd rs1 imm s)
  | stores (n : Nat) (rs1 rs2 : Reg) (imm : BitVec 12) : Shape s (store n rs1 rs2 imm s)
  | exits (e : VmExit) : Shape s (takeExit e s)

/-- Every arm of `exec` has one of the six shapes. -/
theorem exec_shape (i : Instr) (s : State) : Shape s (exec i s) := by
  cases i
  case lui | auipc | addi | slti | sltiu | xori | ori | andi | slli | srli | srai | add | sub | sll | slt | sltu | xor
      | srl | sra | or | and | addiw | slliw | srliw | sraiw | addw | subw | sllw | srlw | sraw =>
    exact .finishes _ _
  case jal | jalr => exact .jumps _ _
  case beq | bne | blt | bge | bltu | bgeu => exact .branches _ _ _ _
  case lb | lh | lw | lbu | lhu | lwu | ld => exact .loads _ _ _ _ _
  case sb | sh | sw | sd => exact .stores _ _ _ _
  case ecall | ebreak => exact .exits _

/-- No instruction is refused (R113: a decoded instruction always has an arm). -/
theorem exec_never_refuses (i : Instr) (s : State) (r : Refusal) : exec i s ≠ .refused r := by
  have h := exec_shape i s
  generalize exec i s = o at h
  cases h with
  | finishes | jumps | branches | exits =>
    intro h
    cases h
  | loads n ext rd rs1 imm =>
    unfold load
    split <;> (intro h; cases h)
  | stores n rs1 rs2 imm =>
    unfold store
    split <;> (intro h; cases h)

/-- What an arm leaves of memory: all of it, or all but the bytes of one store inside memory. -/
theorem exec_memory {i : Instr} {s t : State} (h : exec i s = .next t) :
    t.mem = s.mem ∨ ∃ a bs, a + bs.length ≤ s.mem.size ∧ t.mem = s.mem.setBytes a bs := by
  have hs := exec_shape i s
  generalize exec i s = o at h hs
  cases hs with
  | finishes rd v =>
    cases Host.Outcome.next.inj h
    exact .inl (by simp)
  | jumps rd target =>
    cases Host.Outcome.next.inj h
    exact .inl (by simp)
  | branches cond rs1 rs2 imm =>
    cases Host.Outcome.next.inj h
    exact .inl rfl
  | loads n ext rd rs1 imm =>
    obtain ⟨-, v, rfl⟩ := load_next h
    exact .inl (by simp)
  | stores n rs1 rs2 imm =>
    obtain ⟨hb, rfl⟩ := store_next h
    exact .inr ⟨_, _, by simpa using hb, rfl⟩
  | exits e =>
    cases Host.Outcome.next.inj h
    exact .inl rfl

/-! ## The step -/

theorem fetch_outside {s : State} (h : s.mem.size < s.pc.toNat + 4) :
    fetchWord s = .error (.boundsViolation s.pc 4) := by
  simp only [fetchWord, memRead_outside h]

theorem fetch_inside {s : State} (h : s.pc.toNat + 4 ≤ s.mem.size) :
    fetchWord s = .ok (BitVec.ofNat 32 (leValue (s.mem.bytes s.pc.toNat 4))) := by
  simp only [fetchWord, memRead_inside h]

theorem step_of_fetch_error {s : State} {f : Fault} (h : fetchWord s = .error f) : step s = .fault f := by
  simp only [step, h]

theorem step_of_decode {s : State} {w : InstrWord} {i : Instr} (hf : fetchWord s = .ok w) (hd : decodeWord w = .ok i) :
    step s = exec i s := by
  simp only [step, hf, hd]

theorem step_of_decode_error {s : State} {w : InstrWord} {e : DecodeError} (hf : fetchWord s = .ok w)
    (hd : decodeWord w = .error e) : step s = .next { s with exit := some (.invalidOpcode w) } := by
  simp only [step, hf, hd]
  rfl

/-- The three ways a step goes: the fetch is outside memory, the word does not decode, or the arm runs. -/
theorem step_cases (s : State) :
    (s.mem.size < s.pc.toNat + 4 ∧ step s = .fault (.boundsViolation s.pc 4)) ∨
    ∃ w, s.pc.toNat + 4 ≤ s.mem.size ∧ fetchWord s = .ok w ∧
      ((∃ e, decodeWord w = .error e ∧ step s = .next { s with exit := some (.invalidOpcode w) }) ∨
       ∃ i, decodeWord w = .ok i ∧ step s = exec i s) := by
  by_cases h : s.pc.toNat + 4 ≤ s.mem.size
  · refine .inr ⟨_, h, fetch_inside h, ?_⟩
    cases hd : decodeWord (BitVec.ofNat 32 (leValue (s.mem.bytes s.pc.toNat 4))) with
    | error e => exact .inl ⟨e, rfl, step_of_decode_error (fetch_inside h) hd⟩
    | ok i => exact .inr ⟨i, rfl, step_of_decode (fetch_inside h) hd⟩
  · exact .inl ⟨by omega, step_of_fetch_error (fetch_outside (by omega))⟩

/-! ## The minimal driver, one lemma for each way a step of it goes -/

theorem drive_of_exit {s t : State} {e : VmExit} (k : Nat) (h : step s = .next t) (he : t.exit = some e) :
    drive (k + 1) s = .exited e t := by
  simp only [drive, h, he]

theorem drive_of_stepped {s t : State} (k : Nat) (h : step s = .next t) (he : t.exit = none) :
    drive (k + 1) s = drive k t := by
  simp only [drive, h, he]

theorem drive_of_fault {s : State} {f : Fault} (k : Nat) (h : step s = .fault f) : drive (k + 1) s = .dead f := by
  simp only [drive, h]

end Sys2Proof.Laws
end

