-- ==== Sys2Proof/Laws/Decode.lean ====
section
/-! SUPPORT. The fields of a word and of the encoded formats as numbers, and what a mask of `opcode_table.json` says of a
word's fields: so that a proof about decoding is arithmetic on fields, not on bits. -/

namespace Sys2Proof.Laws

/-! ## Fields as numbers -/

theorem toNat_append_eq {n m : Nat} (x : BitVec n) (y : BitVec m) : (x ++ y).toNat = x.toNat * 2 ^ m + y.toNat := by
  rw [BitVec.toNat_append, ← Nat.shiftLeft_add_eq_or_of_lt y.isLt, Nat.shiftLeft_eq]

theorem toNat_slice {n : Nat} (x : BitVec n) (lo len : Nat) :
    (x.extractLsb' lo len).toNat = x.toNat / 2 ^ lo % 2 ^ len := by
  rw [BitVec.extractLsb'_toNat, Nat.shiftRight_eq_div_pow]

theorem val_toFin_slice {n : Nat} (x : BitVec n) (lo : Nat) : (x.extractLsb' lo 5).toFin.val = x.toNat / 2 ^ lo % 32 :=
  toNat_slice x lo 5

/-- The digits of a number put together from two digits. -/
theorem digits {b : Nat} (hi : Nat) {lo : Nat} (h : lo < b) : (hi * b + lo) / b = hi ∧ (hi * b + lo) % b = lo := by
  constructor
  · rw [Nat.mul_comm, Nat.mul_add_div (by omega), Nat.div_eq_of_lt h, Nat.add_zero]
  · rw [Nat.mul_comm, Nat.mul_add_mod, Nat.mod_eq_of_lt h]

variable (w : InstrWord)

theorem opcodeOf_toNat : (opcodeOf w).toNat = w.toNat % 128 := by
  have := toNat_slice w 0 7
  unfold opcodeOf
  omega

theorem funct3Of_toNat : (funct3Of w).toNat = w.toNat / 2 ^ 12 % 8 := by
  have := toNat_slice w 12 3
  unfold funct3Of
  omega

theorem funct7Of_toNat : (funct7Of w).toNat = w.toNat / 2 ^ 25 % 128 := by
  have := toNat_slice w 25 7
  unfold funct7Of
  omega

theorem mode6Of_toNat : (mode6Of w).toNat = w.toNat / 2 ^ 26 % 64 := by
  have := toNat_slice w 26 6
  unfold mode6Of
  omega

theorem upper12Of_toNat : (upper12Of w).toNat = w.toNat / 2 ^ 20 % 4096 := by
  have := toNat_slice w 20 12
  unfold upper12Of
  omega

theorem rdOf_val : (rdOf w).val = w.toNat / 2 ^ 7 % 32 := val_toFin_slice w 7

theorem rs1Of_val : (rs1Of w).val = w.toNat / 2 ^ 15 % 32 := val_toFin_slice w 15

theorem rs2Of_val : (rs2Of w).val = w.toNat / 2 ^ 20 % 32 := val_toFin_slice w 20

theorem immI_toNat : (immI w).toNat = w.toNat / 2 ^ 20 % 4096 := by
  have := toNat_slice w 20 12
  unfold immI
  omega

theorem immS_toNat : (immS w).toNat = w.toNat / 2 ^ 25 % 128 * 32 + w.toNat / 2 ^ 7 % 32 := by
  simp only [immS, toNat_append_eq, toNat_slice]
  omega

theorem immB_toNat : (immB w).toNat =
    w.toNat / 2 ^ 31 % 2 * 2 ^ 12 + w.toNat / 2 ^ 7 % 2 * 2 ^ 11 + w.toNat / 2 ^ 25 % 64 * 2 ^ 5 + w.toNat / 2 ^ 8 % 16 * 2 := by
  simp only [immB, toNat_append_eq, toNat_slice, BitVec.toNat_ofNat]
  omega

theorem immU_toNat : (immU w).toNat = w.toNat / 2 ^ 12 % 2 ^ 20 := by
  have := toNat_slice w 12 20
  unfold immU
  omega

theorem immJ_toNat : (immJ w).toNat =
    w.toNat / 2 ^ 31 % 2 * 2 ^ 20 + w.toNat / 2 ^ 12 % 256 * 2 ^ 12 + w.toNat / 2 ^ 20 % 2 * 2 ^ 11
      + w.toNat / 2 ^ 21 % 1024 * 2 := by
  simp only [immJ, toNat_append_eq, toNat_slice, BitVec.toNat_ofNat]
  omega

theorem shamt6Of_toNat : (shamt6Of w).toNat = w.toNat / 2 ^ 20 % 64 := by
  have := toNat_slice w 20 6
  unfold shamt6Of
  omega

theorem shamt5Of_toNat : (shamt5Of w).toNat = w.toNat / 2 ^ 20 % 32 := by
  have := toNat_slice w 20 5
  unfold shamt5Of
  omega

/-! ## The encoded formats as numbers -/

variable (f7 : BitVec 7) (rs2 rs1 rd : Reg) (f3 : BitVec 3) (op : BitVec 7)

theorem encodeR_toNat : (encodeR f7 rs2 rs1 f3 rd op).toNat =
    f7.toNat * 2 ^ 25 + rs2.val * 2 ^ 20 + rs1.val * 2 ^ 15 + f3.toNat * 2 ^ 12 + rd.val * 2 ^ 7 + op.toNat := by
  simp only [encodeR, toNat_append_eq, BitVec.toNat_ofFin]
  omega

theorem encodeI_toNat (imm : BitVec 12) : (encodeI imm rs1 f3 rd op).toNat =
    imm.toNat * 2 ^ 20 + rs1.val * 2 ^ 15 + f3.toNat * 2 ^ 12 + rd.val * 2 ^ 7 + op.toNat := by
  simp only [encodeI, toNat_append_eq, BitVec.toNat_ofFin]
  omega

theorem encodeS_toNat (imm : BitVec 12) : (encodeS imm rs2 rs1 f3 op).toNat =
    imm.toNat / 32 * 2 ^ 25 + rs2.val * 2 ^ 20 + rs1.val * 2 ^ 15 + f3.toNat * 2 ^ 12 + imm.toNat % 32 * 2 ^ 7 + op.toNat := by
  have := imm.isLt
  simp only [encodeS, toNat_append_eq, BitVec.toNat_ofFin, toNat_slice]
  omega

theorem encodeB_toNat (imm : BitVec 13) : (encodeB imm rs2 rs1 f3 op).toNat =
    imm.toNat / 2 ^ 12 * 2 ^ 31 + imm.toNat / 2 ^ 5 % 64 * 2 ^ 25 + rs2.val * 2 ^ 20 + rs1.val * 2 ^ 15 + f3.toNat * 2 ^ 12
      + imm.toNat / 2 % 16 * 2 ^ 8 + imm.toNat / 2 ^ 11 % 2 * 2 ^ 7 + op.toNat := by
  have := imm.isLt
  simp only [encodeB, toNat_append_eq, BitVec.toNat_ofFin, toNat_slice]
  omega

theorem encodeU_toNat (imm : BitVec 20) : (encodeU imm rd op).toNat = imm.toNat * 2 ^ 12 + rd.val * 2 ^ 7 + op.toNat := by
  simp only [encodeU, toNat_append_eq, BitVec.toNat_ofFin]
  omega

theorem encodeJ_toNat (imm : BitVec 21) : (encodeJ imm rd op).toNat =
    imm.toNat / 2 ^ 20 * 2 ^ 31 + imm.toNat / 2 % 1024 * 2 ^ 21 + imm.toNat / 2 ^ 11 % 2 * 2 ^ 20
      + imm.toNat / 2 ^ 12 % 256 * 2 ^ 12 + rd.val * 2 ^ 7 + op.toNat := by
  have := imm.isLt
  simp only [encodeJ, toNat_append_eq, BitVec.toNat_ofFin, toNat_slice]
  omega

theorem encodeShift6_toNat (mode shamt : BitVec 6) : (encodeShift6 mode shamt rs1 f3 rd op).toNat =
    mode.toNat * 2 ^ 26 + shamt.toNat * 2 ^ 20 + rs1.val * 2 ^ 15 + f3.toNat * 2 ^ 12 + rd.val * 2 ^ 7 + op.toNat := by
  simp only [encodeShift6, toNat_append_eq, BitVec.toNat_ofFin]
  omega

theorem encodeShift5_toNat (mode : BitVec 7) (shamt : BitVec 5) : (encodeShift5 mode shamt rs1 f3 rd op).toNat =
    mode.toNat * 2 ^ 25 + shamt.toNat * 2 ^ 20 + rs1.val * 2 ^ 15 + f3.toNat * 2 ^ 12 + rd.val * 2 ^ 7 + op.toNat := by
  simp only [encodeShift5, toNat_append_eq, BitVec.toNat_ofFin]
  omega

/-! ## Masks as fields -/

/-- A word is its R-format fields. -/
theorem word_eq_fields : w = (funct7Of w ++ w.extractLsb' 20 5 ++ w.extractLsb' 15 5 ++ funct3Of w
    ++ w.extractLsb' 7 5 ++ opcodeOf w : BitVec 32) := by
  apply BitVec.eq_of_toNat_eq
  have := w.isLt
  simp only [toNat_append_eq, toNat_slice, funct7Of_toNat, funct3Of_toNat, opcodeOf_toNat]
  omega

/-- The upper twelve bits are funct7 and the rs2 field. -/
theorem upper12Of_eq : upper12Of w = (funct7Of w ++ w.extractLsb' 20 5 : BitVec 12) := by
  apply BitVec.eq_of_toNat_eq
  simp only [toNat_append_eq, toNat_slice, funct7Of_toNat, upper12Of_toNat]
  omega

/-- funct7 is the 6-bit mode and bit 25. -/
theorem funct7Of_eq : funct7Of w = (mode6Of w ++ w.extractLsb' 25 1 : BitVec 7) := by
  apply BitVec.eq_of_toNat_eq
  simp only [toNat_append_eq, toNat_slice, funct7Of_toNat, mode6Of_toNat]
  omega

/-- A conjunction of two words put together from the same fields is the conjunction of the fields. -/
theorem and_append_fields (a a' : BitVec 7) (b b' c c' : BitVec 5) (d d' : BitVec 3) (e e' : BitVec 5) (f f' : BitVec 7) :
    (a ++ b ++ c ++ d ++ e ++ f) &&& (a' ++ b' ++ c' ++ d' ++ e' ++ f') =
      (a &&& a') ++ (b &&& b') ++ (c &&& c') ++ (d &&& d') ++ (e &&& e') ++ (f &&& f') := by
  simp only [BitVec.and_append]

/-- A masked word, field by field. -/
theorem and_fields (m7 : BitVec 7) (m5 : BitVec 5) (m3 : BitVec 3) :
    w &&& (m7 ++ m5 ++ 0#5 ++ m3 ++ 0#5 ++ 127#7 : BitVec 32) =
      ((funct7Of w &&& m7) ++ (w.extractLsb' 20 5 &&& m5) ++ 0#5 ++ (funct3Of w &&& m3) ++ 0#5 ++ opcodeOf w : BitVec 32) := by
  have h7 : ∀ x : BitVec 7, x &&& 127#7 = x := by decide
  have h := and_append_fields (funct7Of w) m7 (w.extractLsb' 20 5) m5 (w.extractLsb' 15 5) 0#5 (funct3Of w) m3
    (w.extractLsb' 7 5) 0#5 (opcodeOf w) 127#7
  simp only [h7, BitVec.and_zero] at h
  conv => lhs; rw [word_eq_fields w]
  exact h

/-- Mask 0x0000007F: the opcode (the rows of U and J). -/
theorem opcode_mask {w b : InstrWord} {op : BitVec 7} (hb : b = (0#25 ++ op : BitVec 32)) :
    w &&& 0x0000007F#32 = b ↔ opcodeOf w = op := by
  have hm := and_fields w 0#7 0#5 0#3
  rw [show (0#7 ++ 0#5 ++ 0#5 ++ 0#3 ++ 0#5 ++ 127#7 : BitVec 32) = 0x0000007F#32 from rfl] at hm
  rw [hm, hb, ← BitVec.toNat_inj, ← BitVec.toNat_inj]
  simp only [toNat_append_eq, BitVec.and_zero, BitVec.toNat_ofNat]
  omega

/-- Mask 0x0000707F: the opcode and funct3 (the rows of I, S and B). -/
theorem funct3_mask {w b : InstrWord} {op : BitVec 7} {f3 : BitVec 3} (hb : b = (0#17 ++ f3 ++ 0#5 ++ op : BitVec 32)) :
    w &&& 0x0000707F#32 = b ↔ opcodeOf w = op ∧ funct3Of w = f3 := by
  have h3 : ∀ x : BitVec 3, x &&& 7#3 = x := by decide
  have hm := and_fields w 0#7 0#5 7#3
  rw [show (0#7 ++ 0#5 ++ 0#5 ++ 7#3 ++ 0#5 ++ 127#7 : BitVec 32) = 0x0000707F#32 from rfl] at hm
  rw [hm, hb, ← BitVec.toNat_inj, ← BitVec.toNat_inj, ← BitVec.toNat_inj]
  have := (opcodeOf w).isLt
  have := (funct3Of w).isLt
  have := op.isLt
  have := f3.isLt
  simp only [toNat_append_eq, BitVec.and_zero, BitVec.toNat_ofNat, h3]
  omega

/-- Mask 0xFE00707F: the opcode, funct3 and funct7 (the rows of R and of the 5-bit shift-immediates). -/
theorem funct7_mask {w b : InstrWord} {op : BitVec 7} {f3 : BitVec 3} {f7 : BitVec 7}
    (hb : b = (f7 ++ 0#10 ++ f3 ++ 0#5 ++ op : BitVec 32)) :
    w &&& 0xFE00707F#32 = b ↔ opcodeOf w = op ∧ funct3Of w = f3 ∧ funct7Of w = f7 := by
  have h3 : ∀ x : BitVec 3, x &&& 7#3 = x := by decide
  have h7 : ∀ x : BitVec 7, x &&& 127#7 = x := by decide
  have hm := and_fields w 127#7 0#5 7#3
  rw [show (127#7 ++ 0#5 ++ 0#5 ++ 7#3 ++ 0#5 ++ 127#7 : BitVec 32) = 0xFE00707F#32 from rfl] at hm
  rw [hm, hb, ← BitVec.toNat_inj, ← BitVec.toNat_inj, ← BitVec.toNat_inj, ← BitVec.toNat_inj]
  have := (opcodeOf w).isLt
  have := (funct3Of w).isLt
  have := (funct7Of w).isLt
  have := op.isLt
  have := f3.isLt
  simp only [toNat_append_eq, BitVec.and_zero, BitVec.toNat_ofNat, h3, h7]
  omega

/-- Mask 0xFC00707F: the opcode, funct3 and the 6-bit mode (the rows of the 6-bit shift-immediates). -/
theorem mode6_mask {w b : InstrWord} {op : BitVec 7} {f3 : BitVec 3} {m : BitVec 6}
    (hb : b = (m ++ 0#11 ++ f3 ++ 0#5 ++ op : BitVec 32)) :
    w &&& 0xFC00707F#32 = b ↔ opcodeOf w = op ∧ funct3Of w = f3 ∧ mode6Of w = m := by
  have h3 : ∀ x : BitVec 3, x &&& 7#3 = x := by decide
  have h7 : ∀ x : BitVec 7, (x &&& 126#7).toNat = x.toNat / 2 * 2 := by decide
  have hm := and_fields w 126#7 0#5 7#3
  rw [show (126#7 ++ 0#5 ++ 0#5 ++ 7#3 ++ 0#5 ++ 127#7 : BitVec 32) = 0xFC00707F#32 from rfl] at hm
  rw [hm, hb, ← BitVec.toNat_inj, ← BitVec.toNat_inj, ← BitVec.toNat_inj, ← BitVec.toNat_inj]
  have := (opcodeOf w).isLt
  have := (funct3Of w).isLt
  have := (funct7Of w).isLt
  have := op.isLt
  have := f3.isLt
  have h6 : (funct7Of w).toNat / 2 = (mode6Of w).toNat := by
    rw [funct7Of_toNat, mode6Of_toNat]
    omega
  simp only [toNat_append_eq, BitVec.and_zero, BitVec.toNat_ofNat, h3, h7, h6]
  omega

/-- Mask 0xFFF0707F: the opcode, funct3 and the 12-bit upper field (ECALL and EBREAK). -/
theorem upper12_mask {w b : InstrWord} {op : BitVec 7} {f3 : BitVec 3} {u : BitVec 12}
    (hb : b = (u ++ 0#5 ++ f3 ++ 0#5 ++ op : BitVec 32)) :
    w &&& 0xFFF0707F#32 = b ↔ opcodeOf w = op ∧ funct3Of w = f3 ∧ upper12Of w = u := by
  have h3 : ∀ x : BitVec 3, x &&& 7#3 = x := by decide
  have h5 : ∀ x : BitVec 5, x &&& 31#5 = x := by decide
  have h7 : ∀ x : BitVec 7, x &&& 127#7 = x := by decide
  have hm := and_fields w 127#7 31#5 7#3
  rw [show (127#7 ++ 31#5 ++ 0#5 ++ 7#3 ++ 0#5 ++ 127#7 : BitVec 32) = 0xFFF0707F#32 from rfl] at hm
  rw [hm, hb, ← BitVec.toNat_inj, ← BitVec.toNat_inj, ← BitVec.toNat_inj, ← BitVec.toNat_inj, upper12Of_eq]
  have := (opcodeOf w).isLt
  have := (funct3Of w).isLt
  have := op.isLt
  have := f3.isLt
  simp only [toNat_append_eq, BitVec.toNat_ofNat, h3, h5, h7]
  omega

/-! ## What decoding answers -/

/-- The instruction that a word decodes to, with the fields that select it: one case for each of the 51 rows. -/
inductive Decodes (w : InstrWord) : Instr → Prop where
  | lui (hop : opcodeOf w = 0b0110111#7) : Decodes w (.lui (rdOf w) (immU w))
  | auipc (hop : opcodeOf w = 0b0010111#7) : Decodes w (.auipc (rdOf w) (immU w))
  | jal (hop : opcodeOf w = 0b1101111#7) : Decodes w (.jal (rdOf w) (immJ w))
  | jalr (hop : opcodeOf w = 0b1100111#7) (h3 : funct3Of w = 0b000#3) : Decodes w (.jalr (rdOf w) (rs1Of w) (immI w))
  | beq (hop : opcodeOf w = 0b1100011#7) (h3 : funct3Of w = 0b000#3) : Decodes w (.beq (rs1Of w) (rs2Of w) (immB w))
  | bne (hop : opcodeOf w = 0b1100011#7) (h3 : funct3Of w = 0b001#3) : Decodes w (.bne (rs1Of w) (rs2Of w) (immB w))
  | blt (hop : opcodeOf w = 0b1100011#7) (h3 : funct3Of w = 0b100#3) : Decodes w (.blt (rs1Of w) (rs2Of w) (immB w))
  | bge (hop : opcodeOf w = 0b1100011#7) (h3 : funct3Of w = 0b101#3) : Decodes w (.bge (rs1Of w) (rs2Of w) (immB w))
  | bltu (hop : opcodeOf w = 0b1100011#7) (h3 : funct3Of w = 0b110#3) : Decodes w (.bltu (rs1Of w) (rs2Of w) (immB w))
  | bgeu (hop : opcodeOf w = 0b1100011#7) (h3 : funct3Of w = 0b111#3) : Decodes w (.bgeu (rs1Of w) (rs2Of w) (immB w))
  | lb (hop : opcodeOf w = 0b0000011#7) (h3 : funct3Of w = 0b000#3) : Decodes w (.lb (rdOf w) (rs1Of w) (immI w))
  | lh (hop : opcodeOf w = 0b0000011#7) (h3 : funct3Of w = 0b001#3) : Decodes w (.lh (rdOf w) (rs1Of w) (immI w))
  | lw (hop : opcodeOf w = 0b0000011#7) (h3 : funct3Of w = 0b010#3) : Decodes w (.lw (rdOf w) (rs1Of w) (immI w))
  | ld (hop : opcodeOf w = 0b0000011#7) (h3 : funct3Of w = 0b011#3) : Decodes w (.ld (rdOf w) (rs1Of w) (immI w))
  | lbu (hop : opcodeOf w = 0b0000011#7) (h3 : funct3Of w = 0b100#3) : Decodes w (.lbu (rdOf w) (rs1Of w) (immI w))
  | lhu (hop : opcodeOf w = 0b0000011#7) (h3 : funct3Of w = 0b101#3) : Decodes w (.lhu (rdOf w) (rs1Of w) (immI w))
  | lwu (hop : opcodeOf w = 0b0000011#7) (h3 : funct3Of w = 0b110#3) : Decodes w (.lwu (rdOf w) (rs1Of w) (immI w))
  | sb (hop : opcodeOf w = 0b0100011#7) (h3 : funct3Of w = 0b000#3) : Decodes w (.sb (rs1Of w) (rs2Of w) (immS w))
  | sh (hop : opcodeOf w = 0b0100011#7) (h3 : funct3Of w = 0b001#3) : Decodes w (.sh (rs1Of w) (rs2Of w) (immS w))
  | sw (hop : opcodeOf w = 0b0100011#7) (h3 : funct3Of w = 0b010#3) : Decodes w (.sw (rs1Of w) (rs2Of w) (immS w))
  | sd (hop : opcodeOf w = 0b0100011#7) (h3 : funct3Of w = 0b011#3) : Decodes w (.sd (rs1Of w) (rs2Of w) (immS w))
  | addi (hop : opcodeOf w = 0b0010011#7) (h3 : funct3Of w = 0b000#3) : Decodes w (.addi (rdOf w) (rs1Of w) (immI w))
  | slti (hop : opcodeOf w = 0b0010011#7) (h3 : funct3Of w = 0b010#3) : Decodes w (.slti (rdOf w) (rs1Of w) (immI w))
  | sltiu (hop : opcodeOf w = 0b0010011#7) (h3 : funct3Of w = 0b011#3) : Decodes w (.sltiu (rdOf w) (rs1Of w) (immI w))
  | xori (hop : opcodeOf w = 0b0010011#7) (h3 : funct3Of w = 0b100#3) : Decodes w (.xori (rdOf w) (rs1Of w) (immI w))
  | ori (hop : opcodeOf w = 0b0010011#7) (h3 : funct3Of w = 0b110#3) : Decodes w (.ori (rdOf w) (rs1Of w) (immI w))
  | andi (hop : opcodeOf w = 0b0010011#7) (h3 : funct3Of w = 0b111#3) : Decodes w (.andi (rdOf w) (rs1Of w) (immI w))
  | slli (hop : opcodeOf w = 0b0010011#7) (h3 : funct3Of w = 0b001#3) (hm : mode6Of w = 0b000000#6) : Decodes w (.slli (rdOf w) (rs1Of w) (shamt6Of w))
  | srli (hop : opcodeOf w = 0b0010011#7) (h3 : funct3Of w = 0b101#3) (hm : mode6Of w = 0b000000#6) : Decodes w (.srli (rdOf w) (rs1Of w) (shamt6Of w))
  | srai (hop : opcodeOf w = 0b0010011#7) (h3 : funct3Of w = 0b101#3) (hm : mode6Of w = 0b010000#6) : Decodes w (.srai (rdOf w) (rs1Of w) (shamt6Of w))
  | add (hop : opcodeOf w = 0b0110011#7) (h3 : funct3Of w = 0b000#3) (hm : funct7Of w = 0b0000000#7) : Decodes w (.add (rdOf w) (rs1Of w) (rs2Of w))
  | sub (hop : opcodeOf w = 0b0110011#7) (h3 : funct3Of w = 0b000#3) (hm : funct7Of w = 0b0100000#7) : Decodes w (.sub (rdOf w) (rs1Of w) (rs2Of w))
  | sll (hop : opcodeOf w = 0b0110011#7) (h3 : funct3Of w = 0b001#3) (hm : funct7Of w = 0b0000000#7) : Decodes w (.sll (rdOf w) (rs1Of w) (rs2Of w))
  | slt (hop : opcodeOf w = 0b0110011#7) (h3 : funct3Of w = 0b010#3) (hm : funct7Of w = 0b0000000#7) : Decodes w (.slt (rdOf w) (rs1Of w) (rs2Of w))
  | sltu (hop : opcodeOf w = 0b0110011#7) (h3 : funct3Of w = 0b011#3) (hm : funct7Of w = 0b0000000#7) : Decodes w (.sltu (rdOf w) (rs1Of w) (rs2Of w))
  | xor (hop : opcodeOf w = 0b0110011#7) (h3 : funct3Of w = 0b100#3) (hm : funct7Of w = 0b0000000#7) : Decodes w (.xor (rdOf w) (rs1Of w) (rs2Of w))
  | srl (hop : opcodeOf w = 0b0110011#7) (h3 : funct3Of w = 0b101#3) (hm : funct7Of w = 0b0000000#7) : Decodes w (.srl (rdOf w) (rs1Of w) (rs2Of w))
  | sra (hop : opcodeOf w = 0b0110011#7) (h3 : funct3Of w = 0b101#3) (hm : funct7Of w = 0b0100000#7) : Decodes w (.sra (rdOf w) (rs1Of w) (rs2Of w))
  | or (hop : opcodeOf w = 0b0110011#7) (h3 : funct3Of w = 0b110#3) (hm : funct7Of w = 0b0000000#7) : Decodes w (.or (rdOf w) (rs1Of w) (rs2Of w))
  | and (hop : opcodeOf w = 0b0110011#7) (h3 : funct3Of w = 0b111#3) (hm : funct7Of w = 0b0000000#7) : Decodes w (.and (rdOf w) (rs1Of w) (rs2Of w))
  | ecall (hop : opcodeOf w = 0b1110011#7) (h3 : funct3Of w = 0b000#3) (hm : upper12Of w = 0#12) : Decodes w (.ecall)
  | ebreak (hop : opcodeOf w = 0b1110011#7) (h3 : funct3Of w = 0b000#3) (hm : upper12Of w = 1#12) : Decodes w (.ebreak)
  | addiw (hop : opcodeOf w = 0b0011011#7) (h3 : funct3Of w = 0b000#3) : Decodes w (.addiw (rdOf w) (rs1Of w) (immI w))
  | slliw (hop : opcodeOf w = 0b0011011#7) (h3 : funct3Of w = 0b001#3) (hm : funct7Of w = 0b0000000#7) : Decodes w (.slliw (rdOf w) (rs1Of w) (shamt5Of w))
  | srliw (hop : opcodeOf w = 0b0011011#7) (h3 : funct3Of w = 0b101#3) (hm : funct7Of w = 0b0000000#7) : Decodes w (.srliw (rdOf w) (rs1Of w) (shamt5Of w))
  | sraiw (hop : opcodeOf w = 0b0011011#7) (h3 : funct3Of w = 0b101#3) (hm : funct7Of w = 0b0100000#7) : Decodes w (.sraiw (rdOf w) (rs1Of w) (shamt5Of w))
  | addw (hop : opcodeOf w = 0b0111011#7) (h3 : funct3Of w = 0b000#3) (hm : funct7Of w = 0b0000000#7) : Decodes w (.addw (rdOf w) (rs1Of w) (rs2Of w))
  | subw (hop : opcodeOf w = 0b0111011#7) (h3 : funct3Of w = 0b000#3) (hm : funct7Of w = 0b0100000#7) : Decodes w (.subw (rdOf w) (rs1Of w) (rs2Of w))
  | sllw (hop : opcodeOf w = 0b0111011#7) (h3 : funct3Of w = 0b001#3) (hm : funct7Of w = 0b0000000#7) : Decodes w (.sllw (rdOf w) (rs1Of w) (rs2Of w))
  | srlw (hop : opcodeOf w = 0b0111011#7) (h3 : funct3Of w = 0b101#3) (hm : funct7Of w = 0b0000000#7) : Decodes w (.srlw (rdOf w) (rs1Of w) (rs2Of w))
  | sraw (hop : opcodeOf w = 0b0111011#7) (h3 : funct3Of w = 0b101#3) (hm : funct7Of w = 0b0100000#7) : Decodes w (.sraw (rdOf w) (rs1Of w) (rs2Of w))

/-- Decoding answers an instruction in exactly those cases: every use of the dispatch goes through this. -/
theorem decode_iff (w : InstrWord) (i : Instr) : decodeWord w = .ok i ↔ Decodes w i := by
  constructor
  · intro h
    unfold decodeWord decodeJalr decodeBranch decodeLoad decodeStore decodeAluImm decodeAluReg decodeSystem decodeWordImm decodeWordReg at h
    (repeat' split at h) <;> cases h <;> constructor <;> assumption
  · intro h
    cases h <;>
      simp only [*, decodeWord, decodeJalr, decodeBranch, decodeLoad, decodeStore, decodeAluImm, decodeAluReg, decodeSystem, decodeWordImm, decodeWordReg]

/-- A decode that gives no instruction is the exit, carrying the word (R83, R86, R88). -/
theorem decode_error {w : InstrWord} {e : DecodeError} (h : decodeWord w = .error e) : e = .invalidOpcode w := by
  unfold decodeWord decodeJalr decodeBranch decodeLoad decodeStore decodeAluImm decodeAluReg decodeSystem decodeWordImm decodeWordReg at h
  (repeat' split at h) <;> cases h <;> rfl

end Sys2Proof.Laws
end

