-- ==== Sys2Proof/Laws/Encode.lean ====
section
/-! SUPPORT. What each field extractor reads from a word of each format: the field the encoder put there. -/

namespace Sys2Proof.Laws

/-! ## Format R -/

section FormatR

variable (f7 : BitVec 7) (rs2 rs1 : Reg) (f3 : BitVec 3) (rd : Reg) (op : BitVec 7)

@[simp] theorem opcodeOf_encodeR : opcodeOf (encodeR f7 rs2 rs1 f3 rd op) = op := by
  apply BitVec.eq_of_toNat_eq
  rw [opcodeOf_toNat, encodeR_toNat]
  omega

@[simp] theorem funct3Of_encodeR : funct3Of (encodeR f7 rs2 rs1 f3 rd op) = f3 := by
  apply BitVec.eq_of_toNat_eq
  rw [funct3Of_toNat, encodeR_toNat]
  omega

@[simp] theorem funct7Of_encodeR : funct7Of (encodeR f7 rs2 rs1 f3 rd op) = f7 := by
  apply BitVec.eq_of_toNat_eq
  rw [funct7Of_toNat, encodeR_toNat]
  omega

@[simp] theorem rdOf_encodeR : rdOf (encodeR f7 rs2 rs1 f3 rd op) = rd := by
  apply Fin.ext
  rw [rdOf_val, encodeR_toNat]
  omega

@[simp] theorem rs1Of_encodeR : rs1Of (encodeR f7 rs2 rs1 f3 rd op) = rs1 := by
  apply Fin.ext
  rw [rs1Of_val, encodeR_toNat]
  omega

@[simp] theorem rs2Of_encodeR : rs2Of (encodeR f7 rs2 rs1 f3 rd op) = rs2 := by
  apply Fin.ext
  rw [rs2Of_val, encodeR_toNat]
  omega

end FormatR

/-! ## Format I -/

section FormatI

variable (imm : BitVec 12) (rs1 : Reg) (f3 : BitVec 3) (rd : Reg) (op : BitVec 7)

@[simp] theorem opcodeOf_encodeI : opcodeOf (encodeI imm rs1 f3 rd op) = op := by
  apply BitVec.eq_of_toNat_eq
  rw [opcodeOf_toNat, encodeI_toNat]
  omega

@[simp] theorem funct3Of_encodeI : funct3Of (encodeI imm rs1 f3 rd op) = f3 := by
  apply BitVec.eq_of_toNat_eq
  rw [funct3Of_toNat, encodeI_toNat]
  omega

@[simp] theorem upper12Of_encodeI : upper12Of (encodeI imm rs1 f3 rd op) = imm := by
  apply BitVec.eq_of_toNat_eq
  rw [upper12Of_toNat, encodeI_toNat]
  omega

@[simp] theorem immI_encodeI : immI (encodeI imm rs1 f3 rd op) = imm := by
  apply BitVec.eq_of_toNat_eq
  rw [immI_toNat, encodeI_toNat]
  omega

@[simp] theorem rdOf_encodeI : rdOf (encodeI imm rs1 f3 rd op) = rd := by
  apply Fin.ext
  rw [rdOf_val, encodeI_toNat]
  omega

@[simp] theorem rs1Of_encodeI : rs1Of (encodeI imm rs1 f3 rd op) = rs1 := by
  apply Fin.ext
  rw [rs1Of_val, encodeI_toNat]
  omega

end FormatI

/-! ## Format S: an R word whose funct7 and rd fields hold the immediate -/

section FormatS

variable (imm : BitVec 12) (rs2 rs1 : Reg) (f3 : BitVec 3) (op : BitVec 7)

theorem encodeS_eq_encodeR : encodeS imm rs2 rs1 f3 op =
    encodeR (imm.extractLsb' 5 7) rs2 rs1 f3 (imm.extractLsb' 0 5).toFin op := rfl

@[simp] theorem opcodeOf_encodeS : opcodeOf (encodeS imm rs2 rs1 f3 op) = op := by
  simp [encodeS_eq_encodeR]

@[simp] theorem funct3Of_encodeS : funct3Of (encodeS imm rs2 rs1 f3 op) = f3 := by
  simp [encodeS_eq_encodeR]

@[simp] theorem rs1Of_encodeS : rs1Of (encodeS imm rs2 rs1 f3 op) = rs1 := by
  simp [encodeS_eq_encodeR]

@[simp] theorem rs2Of_encodeS : rs2Of (encodeS imm rs2 rs1 f3 op) = rs2 := by
  simp [encodeS_eq_encodeR]

@[simp] theorem immS_encodeS : immS (encodeS imm rs2 rs1 f3 op) = imm := by
  have hf := congrArg BitVec.toNat (funct7Of_encodeR (imm.extractLsb' 5 7) rs2 rs1 f3 (imm.extractLsb' 0 5).toFin op)
  have hr := congrArg Fin.val (rdOf_encodeR (imm.extractLsb' 5 7) rs2 rs1 f3 (imm.extractLsb' 0 5).toFin op)
  rw [val_toFin_slice, rdOf_val, ← encodeS_eq_encodeR] at hr
  rw [toNat_slice, funct7Of_toNat, ← encodeS_eq_encodeR] at hf
  apply BitVec.eq_of_toNat_eq
  have := imm.isLt
  rw [immS_toNat, hf, hr]
  omega

end FormatS

/-! ## Format B: an R word whose funct7 and rd fields hold the offset -/

section FormatB

variable (imm : BitVec 13) (rs2 rs1 : Reg) (f3 : BitVec 3) (op : BitVec 7)

/-- The funct7 field of a B word. -/
def offsetB7 : BitVec 7 := imm.extractLsb' 12 1 ++ imm.extractLsb' 5 6

/-- The rd field of a B word. -/
def offsetB5 : BitVec 5 := imm.extractLsb' 1 4 ++ imm.extractLsb' 11 1

theorem encodeB_eq_encodeR : encodeB imm rs2 rs1 f3 op = encodeR (offsetB7 imm) rs2 rs1 f3 (offsetB5 imm).toFin op := by
  apply BitVec.eq_of_toNat_eq
  have h5 : (offsetB5 imm).toFin.val = (offsetB5 imm).toNat := rfl
  rw [encodeB_toNat, encodeR_toNat, h5, offsetB7, offsetB5, toNat_append_eq, toNat_append_eq]
  simp only [toNat_slice]
  have := imm.isLt
  omega

@[simp] theorem opcodeOf_encodeB : opcodeOf (encodeB imm rs2 rs1 f3 op) = op := by
  simp [encodeB_eq_encodeR]

@[simp] theorem funct3Of_encodeB : funct3Of (encodeB imm rs2 rs1 f3 op) = f3 := by
  simp [encodeB_eq_encodeR]

@[simp] theorem rs1Of_encodeB : rs1Of (encodeB imm rs2 rs1 f3 op) = rs1 := by
  simp [encodeB_eq_encodeR]

@[simp] theorem rs2Of_encodeB : rs2Of (encodeB imm rs2 rs1 f3 op) = rs2 := by
  simp [encodeB_eq_encodeR]

/-- The B offset of a word, from its funct7 and rd fields (R75). -/
theorem immB_of_fields (w : InstrWord) : (immB w).toNat =
    (funct7Of w).toNat / 64 * 2 ^ 12 + (rdOf w).val % 2 * 2 ^ 11 + (funct7Of w).toNat % 64 * 2 ^ 5 + (rdOf w).val / 2 * 2 := by
  rw [immB_toNat, funct7Of_toNat, rdOf_val]
  omega

/-- The B offset comes back where its low bit is 0, which has no place in the word (R75). -/
theorem immB_encodeB (h : evenOffset 13 imm = true) : immB (encodeB imm rs2 rs1 f3 op) = imm := by
  have h0 : imm.toNat % 2 = 0 := by
    simpa [evenOffset, BitVec.getLsbD, Nat.testBit_zero] using h
  have := imm.isLt
  have h5 : (offsetB5 imm).toFin.val = imm.toNat / 2 ^ 1 % 2 ^ 4 * 2 ^ 1 + imm.toNat / 2 ^ 11 % 2 ^ 1 := by
    rw [← toNat_slice, ← toNat_slice, ← toNat_append_eq]
    rfl
  have h7 : (offsetB7 imm).toNat = imm.toNat / 2 ^ 12 % 2 ^ 1 * 2 ^ 6 + imm.toNat / 2 ^ 5 % 2 ^ 6 := by
    rw [offsetB7, toNat_append_eq, toNat_slice, toNat_slice]
  apply BitVec.eq_of_toNat_eq
  obtain ⟨q1, q2⟩ := digits (imm.toNat / 2 ^ 12 % 2 ^ 1) (Nat.mod_lt (imm.toNat / 2 ^ 5) (by decide : 2 ^ 6 > 0))
  obtain ⟨q3, q4⟩ := digits (imm.toNat / 2 ^ 1 % 2 ^ 4) (Nat.mod_lt (imm.toNat / 2 ^ 11) (by decide : 2 ^ 1 > 0))
  rw [immB_of_fields, encodeB_eq_encodeR, funct7Of_encodeR, rdOf_encodeR, h5, h7]
  simp only [Nat.reducePow] at q1 q2 q3 q4 ⊢
  rw [q1, q2, q3, q4]
  have s1 : imm.toNat / 2 = imm.toNat / 32 * 16 + imm.toNat / 2 % 16 := by omega
  have s2 : imm.toNat / 32 = imm.toNat / 2048 * 64 + imm.toNat / 32 % 64 := by omega
  have s3 : imm.toNat / 2048 = imm.toNat / 4096 * 2 + imm.toNat / 2048 % 2 := by omega
  have s4 : imm.toNat / 4096 % 2 = imm.toNat / 4096 := by omega
  have s5 : imm.toNat = imm.toNat / 2 * 2 := by omega
  clear q1 q2 q3 q4 h5 h7
  generalize imm.toNat / 2048 % 2 = x11 at *
  generalize imm.toNat / 32 % 64 = x5 at *
  generalize imm.toNat / 2 % 16 = x1 at *
  generalize imm.toNat / 4096 % 2 = x12 at *
  generalize imm.toNat / 4096 = y12 at *
  generalize imm.toNat / 2048 = y11 at *
  generalize imm.toNat / 32 = y5 at *
  generalize imm.toNat / 2 = y1 at *
  omega

end FormatB

/-! ## Format U -/

section FormatU

variable (imm : BitVec 20) (rd : Reg) (op : BitVec 7)

@[simp] theorem opcodeOf_encodeU : opcodeOf (encodeU imm rd op) = op := by
  apply BitVec.eq_of_toNat_eq
  rw [opcodeOf_toNat, encodeU_toNat]
  omega

@[simp] theorem immU_encodeU : immU (encodeU imm rd op) = imm := by
  apply BitVec.eq_of_toNat_eq
  rw [immU_toNat, encodeU_toNat]
  omega

@[simp] theorem rdOf_encodeU : rdOf (encodeU imm rd op) = rd := by
  apply Fin.ext
  rw [rdOf_val, encodeU_toNat]
  omega

end FormatU

/-! ## Format J: a U word whose 20-bit field holds the offset -/

section FormatJ

variable (imm : BitVec 21) (rd : Reg) (op : BitVec 7)

/-- The 20-bit field of a J word. -/
def offsetJ20 : BitVec 20 :=
  imm.extractLsb' 20 1 ++ imm.extractLsb' 1 10 ++ imm.extractLsb' 11 1 ++ imm.extractLsb' 12 8

theorem encodeJ_eq_encodeU : encodeJ imm rd op = encodeU (offsetJ20 imm) rd op := rfl

@[simp] theorem opcodeOf_encodeJ : opcodeOf (encodeJ imm rd op) = op := by
  simp [encodeJ_eq_encodeU]

@[simp] theorem rdOf_encodeJ : rdOf (encodeJ imm rd op) = rd := by
  simp [encodeJ_eq_encodeU]

/-- The J offset of a word, from its 20-bit field (R77). -/
theorem immJ_of_field (w : InstrWord) : (immJ w).toNat =
    (immU w).toNat / 2 ^ 19 * 2 ^ 20 + (immU w).toNat % 2 ^ 8 * 2 ^ 12 + (immU w).toNat / 2 ^ 8 % 2 * 2 ^ 11
      + (immU w).toNat / 2 ^ 9 % 1024 * 2 := by
  rw [immJ_toNat, immU_toNat]
  omega

/-- The J offset comes back where its low bit is 0, which has no place in the word (R77). -/
theorem immJ_encodeJ (h : evenOffset 21 imm = true) : immJ (encodeJ imm rd op) = imm := by
  have h0 : imm.toNat % 2 = 0 := by
    simpa [evenOffset, BitVec.getLsbD, Nat.testBit_zero] using h
  have := imm.isLt
  have hj : (offsetJ20 imm).toNat = ((imm.toNat / 2 ^ 20 % 2 ^ 1 * 2 ^ 10 + imm.toNat / 2 ^ 1 % 2 ^ 10) * 2 ^ 1
      + imm.toNat / 2 ^ 11 % 2 ^ 1) * 2 ^ 8 + imm.toNat / 2 ^ 12 % 2 ^ 8 := by
    simp only [offsetJ20, toNat_append_eq, toNat_slice]
  generalize hx : imm.toNat / 2 ^ 20 % 2 ^ 1 = x20 at hj
  generalize h1 : imm.toNat / 2 ^ 1 % 2 ^ 10 = x1 at hj
  generalize h11 : imm.toNat / 2 ^ 11 % 2 ^ 1 = x11 at hj
  generalize h12 : imm.toNat / 2 ^ 12 % 2 ^ 8 = x12 at hj
  have b1 : x1 < 2 ^ 10 := h1 ▸ Nat.mod_lt _ (by decide)
  have b11 : x11 < 2 ^ 1 := h11 ▸ Nat.mod_lt _ (by decide)
  have b12 : x12 < 2 ^ 8 := h12 ▸ Nat.mod_lt _ (by decide)
  have s1 : imm.toNat / 2 = imm.toNat / 2 ^ 11 * 2 ^ 10 + imm.toNat / 2 ^ 1 % 2 ^ 10 := by omega
  have s2 : imm.toNat / 2 ^ 11 = imm.toNat / 2 ^ 12 * 2 + imm.toNat / 2 ^ 11 % 2 ^ 1 := by omega
  have s3 : imm.toNat / 2 ^ 12 = imm.toNat / 2 ^ 20 * 2 ^ 8 + imm.toNat / 2 ^ 12 % 2 ^ 8 := by omega
  have s4 : imm.toNat / 2 ^ 20 % 2 ^ 1 = imm.toNat / 2 ^ 20 := by omega
  have s5 : imm.toNat = imm.toNat / 2 * 2 := by omega
  rw [h1] at s1
  rw [h11] at s2
  rw [h12] at s3
  rw [hx] at s4
  have himm : imm.toNat = x20 * 2 ^ 20 + x12 * 2 ^ 12 + x11 * 2 ^ 11 + x1 * 2 := by
    rw [s5, s1, s2, s3, ← s4]
    clear s1 s2 s3 s4 s5 hx h1 h11 h12 hj
    omega
  apply BitVec.eq_of_toNat_eq
  rw [immJ_of_field, encodeJ_eq_encodeU, immU_encodeU, hj, himm]
  clear hx h1 h11 h12 hj himm h0 h this s1 s2 s3 s4 s5
  omega

end FormatJ

/-! ## Format Shift6 -/

section FormatShift6

variable (mode shamt : BitVec 6) (rs1 : Reg) (f3 : BitVec 3) (rd : Reg) (op : BitVec 7)

@[simp] theorem opcodeOf_encodeShift6 : opcodeOf (encodeShift6 mode shamt rs1 f3 rd op) = op := by
  apply BitVec.eq_of_toNat_eq
  rw [opcodeOf_toNat, encodeShift6_toNat]
  omega

@[simp] theorem funct3Of_encodeShift6 : funct3Of (encodeShift6 mode shamt rs1 f3 rd op) = f3 := by
  apply BitVec.eq_of_toNat_eq
  rw [funct3Of_toNat, encodeShift6_toNat]
  omega

@[simp] theorem mode6Of_encodeShift6 : mode6Of (encodeShift6 mode shamt rs1 f3 rd op) = mode := by
  apply BitVec.eq_of_toNat_eq
  rw [mode6Of_toNat, encodeShift6_toNat]
  omega

@[simp] theorem shamt6Of_encodeShift6 : shamt6Of (encodeShift6 mode shamt rs1 f3 rd op) = shamt := by
  apply BitVec.eq_of_toNat_eq
  rw [shamt6Of_toNat, encodeShift6_toNat]
  omega

@[simp] theorem rdOf_encodeShift6 : rdOf (encodeShift6 mode shamt rs1 f3 rd op) = rd := by
  apply Fin.ext
  rw [rdOf_val, encodeShift6_toNat]
  omega

@[simp] theorem rs1Of_encodeShift6 : rs1Of (encodeShift6 mode shamt rs1 f3 rd op) = rs1 := by
  apply Fin.ext
  rw [rs1Of_val, encodeShift6_toNat]
  omega

end FormatShift6

/-! ## Format Shift5 -/

section FormatShift5

variable (mode : BitVec 7) (shamt : BitVec 5) (rs1 : Reg) (f3 : BitVec 3) (rd : Reg) (op : BitVec 7)

@[simp] theorem opcodeOf_encodeShift5 : opcodeOf (encodeShift5 mode shamt rs1 f3 rd op) = op := by
  apply BitVec.eq_of_toNat_eq
  rw [opcodeOf_toNat, encodeShift5_toNat]
  omega

@[simp] theorem funct3Of_encodeShift5 : funct3Of (encodeShift5 mode shamt rs1 f3 rd op) = f3 := by
  apply BitVec.eq_of_toNat_eq
  rw [funct3Of_toNat, encodeShift5_toNat]
  omega

@[simp] theorem funct7Of_encodeShift5 : funct7Of (encodeShift5 mode shamt rs1 f3 rd op) = mode := by
  apply BitVec.eq_of_toNat_eq
  rw [funct7Of_toNat, encodeShift5_toNat]
  omega

@[simp] theorem shamt5Of_encodeShift5 : shamt5Of (encodeShift5 mode shamt rs1 f3 rd op) = shamt := by
  apply BitVec.eq_of_toNat_eq
  rw [shamt5Of_toNat, encodeShift5_toNat]
  omega

@[simp] theorem rdOf_encodeShift5 : rdOf (encodeShift5 mode shamt rs1 f3 rd op) = rd := by
  apply Fin.ext
  rw [rdOf_val, encodeShift5_toNat]
  omega

@[simp] theorem rs1Of_encodeShift5 : rs1Of (encodeShift5 mode shamt rs1 f3 rd op) = rs1 := by
  apply Fin.ext
  rw [rs1Of_val, encodeShift5_toNat]
  omega

end FormatShift5

/-! ## A word is its fields put together again -/

section Fields

variable (w : InstrWord)

theorem encodeR_fields :
    encodeR (funct7Of w) (rs2Of w) (rs1Of w) (funct3Of w) (rdOf w) (opcodeOf w) = w := by
  apply BitVec.eq_of_toNat_eq
  have := w.isLt
  rw [encodeR_toNat, funct7Of_toNat, rs2Of_val, rs1Of_val, funct3Of_toNat, rdOf_val, opcodeOf_toNat]
  omega

theorem encodeI_fields : encodeI (immI w) (rs1Of w) (funct3Of w) (rdOf w) (opcodeOf w) = w := by
  apply BitVec.eq_of_toNat_eq
  have := w.isLt
  rw [encodeI_toNat, immI_toNat, rs1Of_val, funct3Of_toNat, rdOf_val, opcodeOf_toNat]
  omega

theorem encodeS_fields : encodeS (immS w) (rs2Of w) (rs1Of w) (funct3Of w) (opcodeOf w) = w := by
  apply BitVec.eq_of_toNat_eq
  have := w.isLt
  rw [encodeS_toNat, immS_toNat, rs1Of_val, rs2Of_val, funct3Of_toNat, opcodeOf_toNat]
  omega

/-- The digits of a B offset. -/
theorem offsetB_digits {x z y v : Nat} (hx : x < 2) (hz : z < 2) (hy : y < 64) (hv : v < 16) :
    (x * 4096 + z * 2048 + y * 32 + v * 2) / 4096 % 2 = x ∧
    (x * 4096 + z * 2048 + y * 32 + v * 2) / 2048 % 2 = z ∧
    (x * 4096 + z * 2048 + y * 32 + v * 2) / 32 % 64 = y ∧
    (x * 4096 + z * 2048 + y * 32 + v * 2) / 2 % 16 = v := by
  have e1 : x * 4096 + z * 2048 + y * 32 + v * 2 = x * 4096 + (z * 2048 + y * 32 + v * 2) := by ring
  have e2 : x * 4096 + z * 2048 + y * 32 + v * 2 = (x * 2 + z) * 2048 + (y * 32 + v * 2) := by ring
  have e3 : x * 4096 + z * 2048 + y * 32 + v * 2 = ((x * 2 + z) * 64 + y) * 32 + v * 2 := by ring
  have e4 : x * 4096 + z * 2048 + y * 32 + v * 2 = (((x * 2 + z) * 64 + y) * 16 + v) * 2 + 0 := by ring
  refine ⟨?_, ?_, ?_, ?_⟩
  · rw [e1, (digits x (by omega)).1, Nat.mod_eq_of_lt hx]
  · rw [e2, (digits _ (by omega)).1, (digits x hz).2]
  · rw [e3, (digits _ (by omega)).1, (digits _ hy).2]
  · rw [e4, (digits _ (by omega)).1, (digits _ hv).2]

/-- The B offset of a word, in digits. -/
theorem immB_digits : (immB w).toNat = (funct7Of w).toNat / 64 * 4096 + (rdOf w).val % 2 * 2048
    + (funct7Of w).toNat % 64 * 32 + (rdOf w).val / 2 * 2 := by
  rw [immB_of_fields]
  simp only [Nat.reducePow]

/-- The funct7 field of a B word is the one its offset gives (R75). -/
theorem offsetB7_immB : offsetB7 (immB w) = funct7Of w := by
  apply BitVec.eq_of_toNat_eq
  have hf := (funct7Of w).isLt
  have hr := (rdOf w).isLt
  obtain ⟨h1, -, h3, -⟩ := offsetB_digits (x := (funct7Of w).toNat / 64) (z := (rdOf w).val % 2)
    (y := (funct7Of w).toNat % 64) (v := (rdOf w).val / 2) (by omega) (by omega) (by omega) (by omega)
  rw [offsetB7, toNat_append_eq, toNat_slice, toNat_slice, immB_digits]
  simp only [Nat.reducePow]
  rw [h1, h3]
  clear h1 h3
  omega

/-- The rd field of a B word is the one its offset gives (R75). -/
theorem offsetB5_immB : (offsetB5 (immB w)).toFin = rdOf w := by
  apply Fin.ext
  have hf := (funct7Of w).isLt
  have hr := (rdOf w).isLt
  obtain ⟨-, h2, -, h4⟩ := offsetB_digits (x := (funct7Of w).toNat / 64) (z := (rdOf w).val % 2)
    (y := (funct7Of w).toNat % 64) (v := (rdOf w).val / 2) (by omega) (by omega) (by omega) (by omega)
  have h5 : (offsetB5 (immB w)).toFin.val =
      (immB w).toNat / 2 ^ 1 % 2 ^ 4 * 2 ^ 1 + (immB w).toNat / 2 ^ 11 % 2 ^ 1 := by
    rw [← toNat_slice, ← toNat_slice, ← toNat_append_eq]
    rfl
  rw [h5, immB_digits]
  simp only [Nat.reducePow]
  rw [h2, h4]
  clear h2 h4
  omega

theorem encodeB_fields : encodeB (immB w) (rs2Of w) (rs1Of w) (funct3Of w) (opcodeOf w) = w := by
  rw [encodeB_eq_encodeR, offsetB7_immB, offsetB5_immB, encodeR_fields]

theorem encodeU_fields : encodeU (immU w) (rdOf w) (opcodeOf w) = w := by
  apply BitVec.eq_of_toNat_eq
  have := w.isLt
  rw [encodeU_toNat, immU_toNat, rdOf_val, opcodeOf_toNat]
  omega

/-- The digits of a J offset. -/
theorem offsetJ_digits {x y z v : Nat} (hx : x < 2) (hy : y < 256) (hz : z < 2) (hv : v < 1024) :
    (x * 1048576 + y * 4096 + z * 2048 + v * 2) / 1048576 % 2 = x ∧
    (x * 1048576 + y * 4096 + z * 2048 + v * 2) / 4096 % 256 = y ∧
    (x * 1048576 + y * 4096 + z * 2048 + v * 2) / 2048 % 2 = z ∧
    (x * 1048576 + y * 4096 + z * 2048 + v * 2) / 2 % 1024 = v := by
  have e1 : x * 1048576 + y * 4096 + z * 2048 + v * 2 = x * 1048576 + (y * 4096 + z * 2048 + v * 2) := by ring
  have e2 : x * 1048576 + y * 4096 + z * 2048 + v * 2 = (x * 256 + y) * 4096 + (z * 2048 + v * 2) := by ring
  have e3 : x * 1048576 + y * 4096 + z * 2048 + v * 2 = ((x * 256 + y) * 2 + z) * 2048 + v * 2 := by ring
  have e4 : x * 1048576 + y * 4096 + z * 2048 + v * 2 = (((x * 256 + y) * 2 + z) * 1024 + v) * 2 + 0 := by ring
  refine ⟨?_, ?_, ?_, ?_⟩
  · rw [e1, (digits x (by omega)).1, Nat.mod_eq_of_lt hx]
  · rw [e2, (digits _ (by omega)).1, (digits x hy).2]
  · rw [e3, (digits _ (by omega)).1, (digits _ hz).2]
  · rw [e4, (digits _ (by omega)).1, (digits _ hv).2]

/-- The 20-bit field of a J word is the one its offset gives (R77). -/
theorem offsetJ20_immJ : offsetJ20 (immJ w) = immU w := by
  apply BitVec.eq_of_toNat_eq
  have hu := (immU w).isLt
  obtain ⟨h1, h2, h3, h4⟩ := offsetJ_digits (x := (immU w).toNat / 524288) (y := (immU w).toNat % 256)
    (z := (immU w).toNat / 256 % 2) (v := (immU w).toNat / 512 % 1024) (by omega) (by omega) (by omega) (by omega)
  simp only [offsetJ20, toNat_append_eq, toNat_slice, immJ_of_field, Nat.reducePow]
  rw [h1, h2, h3, h4]
  clear h1 h2 h3 h4
  omega

theorem encodeJ_fields : encodeJ (immJ w) (rdOf w) (opcodeOf w) = w := by
  rw [encodeJ_eq_encodeU, offsetJ20_immJ, encodeU_fields]

theorem encodeShift6_fields :
    encodeShift6 (mode6Of w) (shamt6Of w) (rs1Of w) (funct3Of w) (rdOf w) (opcodeOf w) = w := by
  apply BitVec.eq_of_toNat_eq
  have := w.isLt
  rw [encodeShift6_toNat, mode6Of_toNat, shamt6Of_toNat, rs1Of_val, funct3Of_toNat, rdOf_val, opcodeOf_toNat]
  omega

theorem encodeShift5_fields :
    encodeShift5 (funct7Of w) (shamt5Of w) (rs1Of w) (funct3Of w) (rdOf w) (opcodeOf w) = w := by
  apply BitVec.eq_of_toNat_eq
  have := w.isLt
  rw [encodeShift5_toNat, funct7Of_toNat, shamt5Of_toNat, rs1Of_val, funct3Of_toNat, rdOf_val, opcodeOf_toNat]
  omega

/-- The offset of every B word is even (R75). -/
theorem immB_even : evenOffset 13 (immB w) = true := by
  have : (immB w).toNat % 2 = 0 := by
    rw [immB_toNat]
    omega
  simpa [evenOffset, BitVec.getLsbD, Nat.testBit_zero]

/-- The offset of every J word is even (R77). -/
theorem immJ_even : evenOffset 21 (immJ w) = true := by
  have : (immJ w).toNat % 2 = 0 := by
    rw [immJ_toNat]
    omega
  simpa [evenOffset, BitVec.getLsbD, Nat.testBit_zero]

end Fields

end Sys2Proof.Laws
end

