-- ==== Sys2Proof/Laws/PerInstr.lean ====
section
/-! SUPPORT. Statements made for every instruction, one lemma a constructor. Family `TableRow`: an instruction's word
carries the fixed bits of its row of `opcode_table.json` (`30_encoding.md` R84). -/

namespace Sys2Proof.Laws.TableRow

/-- The word of `i` selects its row: masked, it is the row's match. -/
def Statement (i : Instr) : Prop := encode i &&& i.row.mask = i.row.bits

theorem lui (rd : Reg) (imm : BitVec 20) : Statement (.lui rd imm) := by
  refine (opcode_mask (op := 0b0110111#7) rfl).2 ?_
  simp [encode]

theorem auipc (rd : Reg) (imm : BitVec 20) : Statement (.auipc rd imm) := by
  refine (opcode_mask (op := 0b0010111#7) rfl).2 ?_
  simp [encode]

theorem jal (rd : Reg) (imm : BitVec 21) : Statement (.jal rd imm) := by
  refine (opcode_mask (op := 0b1101111#7) rfl).2 ?_
  simp [encode]

theorem jalr (rd rs1 : Reg) (imm : BitVec 12) : Statement (.jalr rd rs1 imm) := by
  refine (funct3_mask (op := 0b1100111#7) (f3 := 0b000#3) rfl).2 ?_
  simp [encode]

theorem beq (rs1 rs2 : Reg) (imm : BitVec 13) : Statement (.beq rs1 rs2 imm) := by
  refine (funct3_mask (op := 0b1100011#7) (f3 := 0b000#3) rfl).2 ?_
  simp [encode]

theorem bne (rs1 rs2 : Reg) (imm : BitVec 13) : Statement (.bne rs1 rs2 imm) := by
  refine (funct3_mask (op := 0b1100011#7) (f3 := 0b001#3) rfl).2 ?_
  simp [encode]

theorem blt (rs1 rs2 : Reg) (imm : BitVec 13) : Statement (.blt rs1 rs2 imm) := by
  refine (funct3_mask (op := 0b1100011#7) (f3 := 0b100#3) rfl).2 ?_
  simp [encode]

theorem bge (rs1 rs2 : Reg) (imm : BitVec 13) : Statement (.bge rs1 rs2 imm) := by
  refine (funct3_mask (op := 0b1100011#7) (f3 := 0b101#3) rfl).2 ?_
  simp [encode]

theorem bltu (rs1 rs2 : Reg) (imm : BitVec 13) : Statement (.bltu rs1 rs2 imm) := by
  refine (funct3_mask (op := 0b1100011#7) (f3 := 0b110#3) rfl).2 ?_
  simp [encode]

theorem bgeu (rs1 rs2 : Reg) (imm : BitVec 13) : Statement (.bgeu rs1 rs2 imm) := by
  refine (funct3_mask (op := 0b1100011#7) (f3 := 0b111#3) rfl).2 ?_
  simp [encode]

theorem lb (rd rs1 : Reg) (imm : BitVec 12) : Statement (.lb rd rs1 imm) := by
  refine (funct3_mask (op := 0b0000011#7) (f3 := 0b000#3) rfl).2 ?_
  simp [encode]

theorem lh (rd rs1 : Reg) (imm : BitVec 12) : Statement (.lh rd rs1 imm) := by
  refine (funct3_mask (op := 0b0000011#7) (f3 := 0b001#3) rfl).2 ?_
  simp [encode]

theorem lw (rd rs1 : Reg) (imm : BitVec 12) : Statement (.lw rd rs1 imm) := by
  refine (funct3_mask (op := 0b0000011#7) (f3 := 0b010#3) rfl).2 ?_
  simp [encode]

theorem lbu (rd rs1 : Reg) (imm : BitVec 12) : Statement (.lbu rd rs1 imm) := by
  refine (funct3_mask (op := 0b0000011#7) (f3 := 0b100#3) rfl).2 ?_
  simp [encode]

theorem lhu (rd rs1 : Reg) (imm : BitVec 12) : Statement (.lhu rd rs1 imm) := by
  refine (funct3_mask (op := 0b0000011#7) (f3 := 0b101#3) rfl).2 ?_
  simp [encode]

theorem lwu (rd rs1 : Reg) (imm : BitVec 12) : Statement (.lwu rd rs1 imm) := by
  refine (funct3_mask (op := 0b0000011#7) (f3 := 0b110#3) rfl).2 ?_
  simp [encode]

theorem ld (rd rs1 : Reg) (imm : BitVec 12) : Statement (.ld rd rs1 imm) := by
  refine (funct3_mask (op := 0b0000011#7) (f3 := 0b011#3) rfl).2 ?_
  simp [encode]

theorem sb (rs1 rs2 : Reg) (imm : BitVec 12) : Statement (.sb rs1 rs2 imm) := by
  refine (funct3_mask (op := 0b0100011#7) (f3 := 0b000#3) rfl).2 ?_
  simp [encode]

theorem sh (rs1 rs2 : Reg) (imm : BitVec 12) : Statement (.sh rs1 rs2 imm) := by
  refine (funct3_mask (op := 0b0100011#7) (f3 := 0b001#3) rfl).2 ?_
  simp [encode]

theorem sw (rs1 rs2 : Reg) (imm : BitVec 12) : Statement (.sw rs1 rs2 imm) := by
  refine (funct3_mask (op := 0b0100011#7) (f3 := 0b010#3) rfl).2 ?_
  simp [encode]

theorem sd (rs1 rs2 : Reg) (imm : BitVec 12) : Statement (.sd rs1 rs2 imm) := by
  refine (funct3_mask (op := 0b0100011#7) (f3 := 0b011#3) rfl).2 ?_
  simp [encode]

theorem addi (rd rs1 : Reg) (imm : BitVec 12) : Statement (.addi rd rs1 imm) := by
  refine (funct3_mask (op := 0b0010011#7) (f3 := 0b000#3) rfl).2 ?_
  simp [encode]

theorem slti (rd rs1 : Reg) (imm : BitVec 12) : Statement (.slti rd rs1 imm) := by
  refine (funct3_mask (op := 0b0010011#7) (f3 := 0b010#3) rfl).2 ?_
  simp [encode]

theorem sltiu (rd rs1 : Reg) (imm : BitVec 12) : Statement (.sltiu rd rs1 imm) := by
  refine (funct3_mask (op := 0b0010011#7) (f3 := 0b011#3) rfl).2 ?_
  simp [encode]

theorem xori (rd rs1 : Reg) (imm : BitVec 12) : Statement (.xori rd rs1 imm) := by
  refine (funct3_mask (op := 0b0010011#7) (f3 := 0b100#3) rfl).2 ?_
  simp [encode]

theorem ori (rd rs1 : Reg) (imm : BitVec 12) : Statement (.ori rd rs1 imm) := by
  refine (funct3_mask (op := 0b0010011#7) (f3 := 0b110#3) rfl).2 ?_
  simp [encode]

theorem andi (rd rs1 : Reg) (imm : BitVec 12) : Statement (.andi rd rs1 imm) := by
  refine (funct3_mask (op := 0b0010011#7) (f3 := 0b111#3) rfl).2 ?_
  simp [encode]

theorem slli (rd rs1 : Reg) (shamt : BitVec 6) : Statement (.slli rd rs1 shamt) := by
  refine (mode6_mask (op := 0b0010011#7) (f3 := 0b001#3) (m := 0b000000#6) rfl).2 ?_
  simp [encode]

theorem srli (rd rs1 : Reg) (shamt : BitVec 6) : Statement (.srli rd rs1 shamt) := by
  refine (mode6_mask (op := 0b0010011#7) (f3 := 0b101#3) (m := 0b000000#6) rfl).2 ?_
  simp [encode]

theorem srai (rd rs1 : Reg) (shamt : BitVec 6) : Statement (.srai rd rs1 shamt) := by
  refine (mode6_mask (op := 0b0010011#7) (f3 := 0b101#3) (m := 0b010000#6) rfl).2 ?_
  simp [encode]

theorem add (rd rs1 rs2 : Reg) : Statement (.add rd rs1 rs2) := by
  refine (funct7_mask (op := 0b0110011#7) (f3 := 0b000#3) (f7 := 0b0000000#7) rfl).2 ?_
  simp [encode]

theorem sub (rd rs1 rs2 : Reg) : Statement (.sub rd rs1 rs2) := by
  refine (funct7_mask (op := 0b0110011#7) (f3 := 0b000#3) (f7 := 0b0100000#7) rfl).2 ?_
  simp [encode]

theorem sll (rd rs1 rs2 : Reg) : Statement (.sll rd rs1 rs2) := by
  refine (funct7_mask (op := 0b0110011#7) (f3 := 0b001#3) (f7 := 0b0000000#7) rfl).2 ?_
  simp [encode]

theorem slt (rd rs1 rs2 : Reg) : Statement (.slt rd rs1 rs2) := by
  refine (funct7_mask (op := 0b0110011#7) (f3 := 0b010#3) (f7 := 0b0000000#7) rfl).2 ?_
  simp [encode]

theorem sltu (rd rs1 rs2 : Reg) : Statement (.sltu rd rs1 rs2) := by
  refine (funct7_mask (op := 0b0110011#7) (f3 := 0b011#3) (f7 := 0b0000000#7) rfl).2 ?_
  simp [encode]

theorem xor (rd rs1 rs2 : Reg) : Statement (.xor rd rs1 rs2) := by
  refine (funct7_mask (op := 0b0110011#7) (f3 := 0b100#3) (f7 := 0b0000000#7) rfl).2 ?_
  simp [encode]

theorem srl (rd rs1 rs2 : Reg) : Statement (.srl rd rs1 rs2) := by
  refine (funct7_mask (op := 0b0110011#7) (f3 := 0b101#3) (f7 := 0b0000000#7) rfl).2 ?_
  simp [encode]

theorem sra (rd rs1 rs2 : Reg) : Statement (.sra rd rs1 rs2) := by
  refine (funct7_mask (op := 0b0110011#7) (f3 := 0b101#3) (f7 := 0b0100000#7) rfl).2 ?_
  simp [encode]

theorem or (rd rs1 rs2 : Reg) : Statement (.or rd rs1 rs2) := by
  refine (funct7_mask (op := 0b0110011#7) (f3 := 0b110#3) (f7 := 0b0000000#7) rfl).2 ?_
  simp [encode]

theorem and (rd rs1 rs2 : Reg) : Statement (.and rd rs1 rs2) := by
  refine (funct7_mask (op := 0b0110011#7) (f3 := 0b111#3) (f7 := 0b0000000#7) rfl).2 ?_
  simp [encode]

theorem ecall : Statement .ecall := rfl

theorem ebreak : Statement .ebreak := rfl

theorem addiw (rd rs1 : Reg) (imm : BitVec 12) : Statement (.addiw rd rs1 imm) := by
  refine (funct3_mask (op := 0b0011011#7) (f3 := 0b000#3) rfl).2 ?_
  simp [encode]

theorem slliw (rd rs1 : Reg) (shamt : BitVec 5) : Statement (.slliw rd rs1 shamt) := by
  refine (funct7_mask (op := 0b0011011#7) (f3 := 0b001#3) (f7 := 0b0000000#7) rfl).2 ?_
  simp [encode]

theorem srliw (rd rs1 : Reg) (shamt : BitVec 5) : Statement (.srliw rd rs1 shamt) := by
  refine (funct7_mask (op := 0b0011011#7) (f3 := 0b101#3) (f7 := 0b0000000#7) rfl).2 ?_
  simp [encode]

theorem sraiw (rd rs1 : Reg) (shamt : BitVec 5) : Statement (.sraiw rd rs1 shamt) := by
  refine (funct7_mask (op := 0b0011011#7) (f3 := 0b101#3) (f7 := 0b0100000#7) rfl).2 ?_
  simp [encode]

theorem addw (rd rs1 rs2 : Reg) : Statement (.addw rd rs1 rs2) := by
  refine (funct7_mask (op := 0b0111011#7) (f3 := 0b000#3) (f7 := 0b0000000#7) rfl).2 ?_
  simp [encode]

theorem subw (rd rs1 rs2 : Reg) : Statement (.subw rd rs1 rs2) := by
  refine (funct7_mask (op := 0b0111011#7) (f3 := 0b000#3) (f7 := 0b0100000#7) rfl).2 ?_
  simp [encode]

theorem sllw (rd rs1 rs2 : Reg) : Statement (.sllw rd rs1 rs2) := by
  refine (funct7_mask (op := 0b0111011#7) (f3 := 0b001#3) (f7 := 0b0000000#7) rfl).2 ?_
  simp [encode]

theorem srlw (rd rs1 rs2 : Reg) : Statement (.srlw rd rs1 rs2) := by
  refine (funct7_mask (op := 0b0111011#7) (f3 := 0b101#3) (f7 := 0b0000000#7) rfl).2 ?_
  simp [encode]

theorem sraw (rd rs1 rs2 : Reg) : Statement (.sraw rd rs1 rs2) := by
  refine (funct7_mask (op := 0b0111011#7) (f3 := 0b101#3) (f7 := 0b0100000#7) rfl).2 ?_
  simp [encode]

end Sys2Proof.Laws.TableRow
end

