-- ==== Sys2Proof/Tests/Slice0.lean ====
section
/-! SUPPORT. The model's own tests. Every expected value is the spec's: a worked example of a rule or a vector of
`95_test_vectors.md` (V2 to V15, S6 to S8), named beside the test. First the well-formedness smoke, then decoding of written
out words, then one step of each instruction, then boot and the host's entries, then for every statement that has
hypotheses a witness that meets them. -/

namespace Sys2Proof.Tests

open Sys2Proof.Machine Sys2Proof.Claims

/-! ## Small states: MEM_SIZE = 0x10000, pc = 0x1000, every register and byte not listed 0 (the vectors' convention) -/

def start : State :=
  { x := Vector.replicate 31 0, pc := 0x1000, mem := Memory.blank 0x10000, exit := none, curAlloc := 0 }

def withRegs (regs : List (Reg × Word)) : State := regs.foldl (fun s c => s.writeReg c.1 c.2) start

/-- The word at the pc, over registers and bytes of memory. -/
def running (w : Nat) (regs : List (Reg × Word)) (a : Nat) (bs : List Byte) : State :=
  State.withFetchWord { withRegs regs with mem := (Memory.blank 0x10000).setBytes a bs } 32 w

def at1000 (w : Nat) (regs : List (Reg × Word)) : State := running w regs 0 []

def atPc (pc : Word) : State := { start with pc := pc }

/-- The next state, where there is one. -/
def next (s : State) : Option State :=
  match step s with
  | .next t => some t
  | _ => none

/-- A register and the pc after a step that reports `stepped`. -/
def stepped (s : State) (r : Reg) : Option (Word × Word) :=
  match step s with
  | .next t => if t.exit = none then some (t.readReg r, t.pc) else none
  | _ => none

/-- Sixteen bytes and the pc after a step that reports `stepped`. -/
def stored (s : State) (a : Nat) : Option (List Byte × Word) :=
  match step s with
  | .next t => if t.exit = none then some (t.mem.bytes a 16, t.pc) else none
  | _ => none

/-- The exit a step reports. -/
def exitOf (s : State) : Option VmExit :=
  match step s with
  | .next t => t.exit
  | _ => none

/-- The fault a step ends in. -/
def faultOf (s : State) : Option Fault :=
  match step s with
  | .fault f => some f
  | _ => none

/-! ## Well-formedness: each check refuses an ill-formed term (R75, R77) -/

theorem test_wf_refuses_odd_jal : (Instr.jal 1 3).wellFormed = false := by decide
theorem test_wf_refuses_odd_beq : (Instr.beq 1 2 1).wellFormed = false := by decide
theorem test_wf_refuses_odd_bne : (Instr.bne 1 2 (-1)).wellFormed = false := by decide
theorem test_wf_refuses_odd_blt : (Instr.blt 1 2 5).wellFormed = false := by decide
theorem test_wf_refuses_odd_bge : (Instr.bge 1 2 4095).wellFormed = false := by decide
theorem test_wf_refuses_odd_bltu : (Instr.bltu 1 2 2049).wellFormed = false := by decide
theorem test_wf_refuses_odd_bgeu : (Instr.bgeu 1 2 (-4095)).wellFormed = false := by decide
theorem test_wf_accepts_the_extremes : (Instr.jal 1 (-1048576)).wellFormed = true ∧ (Instr.jal 1 1048574).wellFormed = true
    ∧ (Instr.bgeu 1 2 (-4096)).wellFormed = true ∧ (Instr.bltu 1 2 4094).wellFormed = true
    ∧ (Instr.jalr 1 5 (-1)).wellFormed = true := by decide

/-! ## Decoding: every constructor, by a word of the spec (V2, V6 to V14) -/

theorem test_decode_upper_and_jumps :
    decodeWord 0x7FFFF2B7#32 = .ok (.lui 5 0x7ffff)
    ∧ decodeWord 0x00001317#32 = .ok (.auipc 6 0x1)
    ∧ decodeWord 0xFF9FF06F#32 = .ok (.jal 0 (-8))
    ∧ decodeWord 0xFFC280E7#32 = .ok (.jalr 1 5 (-4)) := by decide

theorem test_decode_branches :
    decodeWord 0x00208463#32 = .ok (.beq 1 2 8)
    ∧ decodeWord 0xFE209EE3#32 = .ok (.bne 1 2 (-4))
    ∧ decodeWord 0x0020C863#32 = .ok (.blt 1 2 16)
    ∧ decodeWord 0xFE20D8E3#32 = .ok (.bge 1 2 (-16))
    ∧ decodeWord 0x7E20EFE3#32 = .ok (.bltu 1 2 4094)
    ∧ decodeWord 0x8020F063#32 = .ok (.bgeu 1 2 (-4096)) := by decide

theorem test_decode_loads :
    decodeWord 0xFFF10183#32 = .ok (.lb 3 2 (-1))
    ∧ decodeWord 0xFFF11183#32 = .ok (.lh 3 2 (-1))
    ∧ decodeWord 0x00012003#32 = .ok (.lw 0 2 0)
    ∧ decodeWord 0x00714183#32 = .ok (.lbu 3 2 7)
    ∧ decodeWord 0x00715183#32 = .ok (.lhu 3 2 7)
    ∧ decodeWord 0x00416183#32 = .ok (.lwu 3 2 4)
    ∧ decodeWord 0x00513183#32 = .ok (.ld 3 2 5) := by decide

theorem test_decode_stores :
    decodeWord 0x001107A3#32 = .ok (.sb 2 1 15)
    ∧ decodeWord 0x001110A3#32 = .ok (.sh 2 1 1)
    ∧ decodeWord 0x001120A3#32 = .ok (.sw 2 1 1)
    ∧ decodeWord 0xFE113C23#32 = .ok (.sd 2 1 (-8)) := by decide

theorem test_decode_immediates :
    decodeWord 0xFFF08193#32 = .ok (.addi 3 1 (-1))
    ∧ decodeWord 0x8000A193#32 = .ok (.slti 3 1 (-2048))
    ∧ decodeWord 0x8000B193#32 = .ok (.sltiu 3 1 (-2048))
    ∧ decodeWord 0x8000C193#32 = .ok (.xori 3 1 (-2048))
    ∧ decodeWord 0x8000E193#32 = .ok (.ori 3 1 (-2048))
    ∧ decodeWord 0x8000F193#32 = .ok (.andi 3 1 (-2048)) := by decide

theorem test_decode_shift_immediates :
    decodeWord 0x00009193#32 = .ok (.slli 3 1 0)
    ∧ decodeWord 0x03F0D193#32 = .ok (.srli 3 1 63)
    ∧ decodeWord 0x43F0D193#32 = .ok (.srai 3 1 63) := by decide

theorem test_decode_registers :
    decodeWord 0x002081B3#32 = .ok (.add 3 1 2)
    ∧ decodeWord 0x402081B3#32 = .ok (.sub 3 1 2)
    ∧ decodeWord 0x002091B3#32 = .ok (.sll 3 1 2)
    ∧ decodeWord 0x0020A1B3#32 = .ok (.slt 3 1 2)
    ∧ decodeWord 0x0020B1B3#32 = .ok (.sltu 3 1 2)
    ∧ decodeWord 0x0020C1B3#32 = .ok (.xor 3 1 2)
    ∧ decodeWord 0x0020D1B3#32 = .ok (.srl 3 1 2)
    ∧ decodeWord 0x4020D1B3#32 = .ok (.sra 3 1 2)
    ∧ decodeWord 0x0020E1B3#32 = .ok (.or 3 1 2)
    ∧ decodeWord 0x0020F1B3#32 = .ok (.and 3 1 2) := by decide

theorem test_decode_word_immediates :
    decodeWord 0x8000819B#32 = .ok (.addiw 3 1 (-2048))
    ∧ decodeWord 0x01F0919B#32 = .ok (.slliw 3 1 31)
    ∧ decodeWord 0x0010D19B#32 = .ok (.srliw 3 1 1)
    ∧ decodeWord 0x4040D19B#32 = .ok (.sraiw 3 1 4) := by decide

theorem test_decode_word_registers :
    decodeWord 0x002081BB#32 = .ok (.addw 3 1 2)
    ∧ decodeWord 0x402081BB#32 = .ok (.subw 3 1 2)
    ∧ decodeWord 0x002091BB#32 = .ok (.sllw 3 1 2)
    ∧ decodeWord 0x0020D1BB#32 = .ok (.srlw 3 1 2)
    ∧ decodeWord 0x4020D1BB#32 = .ok (.sraw 3 1 2) := by decide

/-- Any rd and rs1 decode as ECALL or EBREAK (V14, R90). -/
theorem test_decode_system : decodeWord 0x00000073#32 = .ok .ecall ∧ decodeWord 0x00100073#32 = .ok .ebreak
    ∧ decodeWord 0x00088573#32 = .ok .ecall ∧ decodeWord 0x001F8FF3#32 = .ok .ebreak := by decide

/-- The split immediates, one bit on each side of every seam (V2). -/
theorem test_decode_split_immediates : decodeWord 0x000000E3#32 = .ok (.beq 0 0 2048)
    ∧ decodeWord 0x02000063#32 = .ok (.beq 0 0 32) ∧ decodeWord 0x00000163#32 = .ok (.beq 0 0 2)
    ∧ decodeWord 0x80000063#32 = .ok (.beq 0 0 (-4096)) ∧ decodeWord 0x0010006F#32 = .ok (.jal 0 2048)
    ∧ decodeWord 0x0000106F#32 = .ok (.jal 0 4096) ∧ decodeWord 0x8000006F#32 = .ok (.jal 0 (-1048576))
    ∧ decodeWord 0x000020A3#32 = .ok (.sw 0 0 1) ∧ decodeWord 0x02002023#32 = .ok (.sw 0 0 32) := by decide

def rejected (w : InstrWord) : Bool := decodeWord w == .error (.invalidOpcode w)

/-- One word of each kind of rejection, the word carried whole (V3). -/
theorem test_decode_rejects_opcodes : rejected 0x00000000 = true ∧ rejected 0xFFFFFFFF = true ∧ rejected 0x0FF0000F = true
    ∧ rejected 0x1005252F = true := by decide
theorem test_decode_rejects_register_pairs : rejected 0x02000033 = true ∧ rejected 0x40001033 = true
    ∧ rejected 0x4000103B = true ∧ rejected 0x0000203B = true := by decide
theorem test_decode_rejects_funct3 : rejected 0x00002063 = true ∧ rejected 0x00007003 = true ∧ rejected 0x00004023 = true
    ∧ rejected 0x00001067 = true ∧ rejected 0x0000201B = true := by decide
theorem test_decode_rejects_modes : rejected 0x04001013 = true ∧ rejected 0x40001013 = true ∧ rejected 0x44005013 = true
    ∧ rejected 0x0200101B = true ∧ rejected 0x4000101B = true ∧ rejected 0x4200501B = true := by decide
theorem test_decode_rejects_system : rejected 0x00200073 = true ∧ rejected 0x30200073 = true
    ∧ rejected 0x00001073 = true := by decide

/-- The host's entry reads the bytes in memory order, and refuses what the decoder refuses (R70, V3). -/
theorem test_decode_table_word : decodeTableWord 32 0x7E20EFE3 = some (.bltu 1 2 4094)
    ∧ decodeTableWord 32 0x00000000 = none ∧ decodeTableWord 8 0xFFFFFF73 = some .ecall := by decide

/-- Bytes as memory holds them, and the rest handed back; too few bytes are refused (R70, S6). -/
theorem test_decode_bytes : decodeBytes [0x23, 0x20, 0x11, 0x00, 0xAA] = .ok (.sw 2 1 0, [0xAA])
    ∧ decodeBytes [0x23, 0x20, 0x11] = .error .truncated := by decide

/-! ## One step of each instruction -/

-- V6
theorem test_lui_is_sign_extended : stepped (at1000 0x800002B7 []) 5 = some (0xFFFFFFFF80000000, 0x0000000000001004) := by decide
theorem test_lui_x0_is_discarded : stepped (at1000 0x12345037 []) 0 = some (0x0000000000000000, 0x0000000000001004) := by decide
theorem test_auipc_subtracts : stepped (at1000 0x80000317 []) 6 = some (0xFFFFFFFF80001000, 0x0000000000001004) := by decide
theorem test_auipc_wraps : stepped (at1000 0xFFFFF317 []) 6 = some (0x0000000000000000, 0x0000000000001004) := by decide
-- V7
theorem test_jal_back_without_link : stepped (at1000 0xFF9FF06F []) 0 = some (0x0000000000000000, 0x0000000000000FF8) := by decide
theorem test_jal_to_odd_word : stepped (at1000 0x002000EF []) 1 = some (0x0000000000001004, 0x0000000000001002) := by decide
theorem test_jalr_uses_the_old_base : stepped (at1000 0x000080E7 [(1, 0x0000000000002000)]) 1 = some (0x0000000000001004, 0x0000000000002000) := by decide
theorem test_jalr_keeps_bit_zero : stepped (at1000 0x001280E7 [(5, 0x0000000000002000)]) 1 = some (0x0000000000001004, 0x0000000000002001) := by decide
-- V8
theorem test_beq_not_taken : stepped (at1000 0x00208463 [(1, 0x0000000000000005), (2, 0x0000000000000006)]) 1 = some (0x0000000000000005, 0x0000000000001004) := by decide
theorem test_beq_taken_back : stepped (at1000 0xFE000EE3 []) 1 = some (0, 0x0000000000000FFC) := by decide
theorem test_bne_sees_the_high_half : stepped (at1000 0xFE209EE3 [(1, 0x0000000100000000), (2, 0x0000000000000000)]) 1 = some (0x0000000100000000, 0x0000000000000FFC) := by decide
theorem test_bne_not_taken : stepped (at1000 0xFE209EE3 [(1, 0x0000000000000005), (2, 0x0000000000000005)]) 1 = some (0x0000000000000005, 0x0000000000001004) := by decide
theorem test_blt_is_signed : stepped (at1000 0x0020C863 [(1, 0x8000000000000000), (2, 0x7FFFFFFFFFFFFFFF)]) 1 = some (0x8000000000000000, 0x0000000000001010) := by decide
theorem test_blt_not_taken : stepped (at1000 0x0020C463 [(1, 0x0000000000000005), (2, 0xFFFFFFFFFFFFFFFF)]) 1 = some (0x0000000000000005, 0x0000000000001004) := by decide
theorem test_bge_taken_on_equal : stepped (at1000 0xFE20D8E3 [(1, 0x0000000000000003), (2, 0x0000000000000003)]) 1 = some (0x0000000000000003, 0x0000000000000FF0) := by decide
theorem test_bge_not_taken : stepped (at1000 0xFE20D8E3 [(1, 0xFFFFFFFFFFFFFFFF), (2, 0x0000000000000000)]) 1 = some (0xFFFFFFFFFFFFFFFF, 0x0000000000001004) := by decide
theorem test_bltu_is_unsigned : stepped (at1000 0x0020E463 [(1, 0x0000000000000005), (2, 0xFFFFFFFFFFFFFFFF)]) 1 = some (0x0000000000000005, 0x0000000000001008) := by decide
theorem test_bltu_not_taken : stepped (at1000 0x7E20EFE3 [(1, 0xFFFFFFFFFFFFFFFF), (2, 0x0000000000000000)]) 1 = some (0xFFFFFFFFFFFFFFFF, 0x0000000000001004) := by decide
theorem test_bgeu_taken_on_equal : stepped (at1000 0x8020F063 [(1, 0x0000000000000003), (2, 0x0000000000000003)]) 1 = some (0x0000000000000003, 0x0000000000000000) := by decide
theorem test_bgeu_not_taken : stepped (at1000 0x8020F063 [(1, 0x0000000000000000), (2, 0xFFFFFFFFFFFFFFFF)]) 1 = some (0x0000000000000000, 0x0000000000001004) := by decide
-- V9: the bytes 80 91 A2 B3 C4 D5 E6 F7 08 19 2A 3B 4C 5D 6E 7F at 0x2000

def loadBytes : List Byte :=
  [0x80, 0x91, 0xA2, 0xB3, 0xC4, 0xD5, 0xE6, 0xF7, 0x08, 0x19, 0x2A, 0x3B, 0x4C, 0x5D, 0x6E, 0x7F]

theorem test_lb_sign_extends : stepped (running 0xFFF10183 [(2, 0x0000000000002008)] 0x2000 loadBytes) 3 = some (0xFFFFFFFFFFFFFFF7, 0x0000000000001004) := by decide
theorem test_lb_to_x0_still_faults : faultOf (running 0x00010003 [(2, 0x0000000000010000)] 0x2000 loadBytes) = some (.boundsViolation 0x0000000000010000 1) := by decide
theorem test_lbu_zero_extends : stepped (running 0x00714183 [(2, 0x0000000000002000)] 0x2000 loadBytes) 3 = some (0x00000000000000F7, 0x0000000000001004) := by decide
theorem test_lh_at_an_odd_address : stepped (running 0x00111183 [(2, 0x0000000000002000)] 0x2000 loadBytes) 3 = some (0xFFFFFFFFFFFFA291, 0x0000000000001004) := by decide
theorem test_lh_across_the_end_faults : faultOf (running 0xFFF11183 [(2, 0x0000000000010000), (3, 0x0000000000000055)] 0x2000 loadBytes) = some (.boundsViolation 0x000000000000FFFF 2) := by decide
theorem test_lhu_zero_extends : stepped (running 0x00715183 [(2, 0x0000000000002000)] 0x2000 loadBytes) 3 = some (0x00000000000008F7, 0x0000000000001004) := by decide
theorem test_lw_is_little_endian : stepped (running 0x00312183 [(2, 0x0000000000002000)] 0x2000 loadBytes) 3 = some (0xFFFFFFFFE6D5C4B3, 0x0000000000001004) := by decide
theorem test_lw_does_not_wrap : faultOf (running 0xFFC12183 [(2, 0x0000000000000002), (3, 0x0000000000000055)] 0x2000 loadBytes) = some (.boundsViolation 0xFFFFFFFFFFFFFFFE 4) := by decide
theorem test_lwu_zero_extends : stepped (running 0x00416183 [(2, 0x0000000000002000)] 0x2000 loadBytes) 3 = some (0x00000000F7E6D5C4, 0x0000000000001004) := by decide
theorem test_ld_over_its_own_base : stepped (running 0x0001B183 [(3, 0x0000000000002000)] 0x2000 loadBytes) 3 = some (0xF7E6D5C4B3A29180, 0x0000000000001004) := by decide
theorem test_ld_across_the_end_faults : faultOf (running 0xFF913183 [(2, 0x0000000000010000), (3, 0x0000000000000055)] 0x2000 loadBytes) = some (.boundsViolation 0x000000000000FFF9 8) := by decide
-- V10: sixteen bytes AA at the row's place
theorem test_sb_last_byte : stored (running 0x001107A3 [(1, 0x1122334455667788), (2, 0x0000000000002000)] 0x2000 (List.replicate 16 0xAA)) 0x2000 =
    some ([0xAA, 0xAA, 0xAA, 0xAA, 0xAA, 0xAA, 0xAA, 0xAA, 0xAA, 0xAA, 0xAA, 0xAA, 0xAA, 0xAA, 0xAA, 0x88], 0x1004) := by decide
theorem test_sb_at_the_end_faults : faultOf (running 0x00110023 [(1, 0x1122334455667788), (2, 0x0000000000010000)] 0xFFF0 (List.replicate 16 0xAA)) = some (.boundsViolation 0x0000000000010000 1) := by decide
theorem test_sh_at_an_odd_address : stored (running 0x001110A3 [(1, 0x1122334455667788), (2, 0x0000000000002000)] 0x2000 (List.replicate 16 0xAA)) 0x2000 =
    some ([0xAA, 0x88, 0x77, 0xAA, 0xAA, 0xAA, 0xAA, 0xAA, 0xAA, 0xAA, 0xAA, 0xAA, 0xAA, 0xAA, 0xAA, 0xAA], 0x1004) := by decide
theorem test_sh_across_the_end_faults : faultOf (running 0xFE111FA3 [(1, 0x1122334455667788), (2, 0x0000000000010000)] 0xFFF0 (List.replicate 16 0xAA)) = some (.boundsViolation 0x000000000000FFFF 2) := by decide
theorem test_sw_is_little_endian : stored (running 0x001120A3 [(1, 0x1122334455667788), (2, 0x0000000000002000)] 0x2000 (List.replicate 16 0xAA)) 0x2000 =
    some ([0xAA, 0x88, 0x77, 0x66, 0x55, 0xAA, 0xAA, 0xAA, 0xAA, 0xAA, 0xAA, 0xAA, 0xAA, 0xAA, 0xAA, 0xAA], 0x1004) := by decide
theorem test_sw_does_not_wrap : faultOf (running 0xFE112F23 [(1, 0x1122334455667788), (2, 0x0000000000000000)] 0xFFF0 (List.replicate 16 0xAA)) = some (.boundsViolation 0xFFFFFFFFFFFFFFFE 4) := by decide
theorem test_sd_misaligned : stored (running 0x001131A3 [(1, 0x1122334455667788), (2, 0x0000000000002000)] 0x2000 (List.replicate 16 0xAA)) 0x2000 =
    some ([0xAA, 0xAA, 0xAA, 0x88, 0x77, 0x66, 0x55, 0x44, 0x33, 0x22, 0x11, 0xAA, 0xAA, 0xAA, 0xAA, 0xAA], 0x1004) := by decide
theorem test_sd_last_doubleword : stored (running 0xFE113C23 [(1, 0x1122334455667788), (2, 0x0000000000010000)] 0xFFF0 (List.replicate 16 0xAA)) 0xFFF0 =
    some ([0xAA, 0xAA, 0xAA, 0xAA, 0xAA, 0xAA, 0xAA, 0xAA, 0x88, 0x77, 0x66, 0x55, 0x44, 0x33, 0x22, 0x11], 0x1004) := by decide
-- V11
theorem test_addi_wraps : stepped (at1000 0x00118193 [(3, 0xFFFFFFFFFFFFFFFF)]) 3 = some (0x0000000000000000, 0x1004) := by decide
theorem test_addi_sign_extends : stepped (at1000 0x80008193 [(1, 0x8000000000000000)]) 3 = some (0x7FFFFFFFFFFFF800, 0x1004) := by decide
theorem test_slti_is_signed : stepped (at1000 0x8000A193 [(1, 0x8000000000000000)]) 3 = some (0x0000000000000001, 0x1004) := by decide
theorem test_slti_not_less : stepped (at1000 0xFFF0A193 [(1, 0x7FFFFFFFFFFFFFFF)]) 3 = some (0x0000000000000000, 0x1004) := by decide
theorem test_sltiu_sign_extends_then_unsigned : stepped (at1000 0x8000B193 [(1, 0xFFFFFFFFFFFFF7FF)]) 3 = some (0x0000000000000001, 0x1004) := by decide
theorem test_sltiu_is_unsigned : stepped (at1000 0x7FF0B193 [(1, 0x8000000000000000)]) 3 = some (0x0000000000000000, 0x1004) := by decide
theorem test_xori_inverts : stepped (at1000 0xFFF0C193 [(1, 0x0123456789ABCDEF)]) 3 = some (0xFEDCBA9876543210, 0x1004) := by decide
theorem test_ori_sign_extends : stepped (at1000 0x8000E193 [(1, 0x0000000000000001)]) 3 = some (0xFFFFFFFFFFFFF801, 0x1004) := by decide
theorem test_andi_sign_extends : stepped (at1000 0x8000F193 [(1, 0xFFFFFFFFFFFFFFFF)]) 3 = some (0xFFFFFFFFFFFFF800, 0x1004) := by decide
theorem test_slli_uses_bit_25 : stepped (at1000 0x02009193 [(1, 0x00000000FFFFFFFF)]) 3 = some (0xFFFFFFFF00000000, 0x1004) := by decide
theorem test_srli_brings_zeros : stepped (at1000 0x03F0D193 [(1, 0x8000000000000000)]) 3 = some (0x0000000000000001, 0x1004) := by decide
theorem test_srai_copies_the_sign : stepped (at1000 0x4040D193 [(1, 0xF000000000000000)]) 3 = some (0xFF00000000000000, 0x1004) := by decide
theorem test_srai_of_a_positive : stepped (at1000 0x4010D193 [(1, 0x7FFFFFFFFFFFFFFF)]) 3 = some (0x3FFFFFFFFFFFFFFF, 0x1004) := by decide
-- V12
theorem test_add_over_its_source : stepped (at1000 0x002080B3 [(1, 0x0000000000000005), (2, 0x0000000000000006)]) 1 = some (0x000000000000000B, 0x1004) := by decide
theorem test_add_wraps : stepped (at1000 0x002081B3 [(1, 0x7FFFFFFFFFFFFFFF), (2, 0x0000000000000001)]) 3 = some (0x8000000000000000, 0x1004) := by decide
theorem test_sub_wraps : stepped (at1000 0x402081B3 [(1, 0x8000000000000000), (2, 0x0000000000000001)]) 3 = some (0x7FFFFFFFFFFFFFFF, 0x1004) := by decide
theorem test_sub_order : stepped (at1000 0x402001B3 [(2, 0x8000000000000000)]) 3 = some (0x8000000000000000, 0x1004) := by decide
theorem test_sll_uses_six_bits : stepped (at1000 0x002091B3 [(1, 0xFFFFFFFFFFFFFFFF), (2, 0xFFFFFFFFFFFFFFC1)]) 3 = some (0xFFFFFFFFFFFFFFFE, 0x1004) := by decide
theorem test_sll_by_64_is_by_0 : stepped (at1000 0x002091B3 [(1, 0x0000000000000001), (2, 0x0000000000000040)]) 3 = some (0x0000000000000001, 0x1004) := by decide
theorem test_slt_is_signed : stepped (at1000 0x0020A1B3 [(1, 0x8000000000000000), (2, 0x7FFFFFFFFFFFFFFF)]) 3 = some (0x0000000000000001, 0x1004) := by decide
theorem test_slt_not_less : stepped (at1000 0x0020A1B3 [(1, 0x0000000000000000), (2, 0xFFFFFFFFFFFFFFFF)]) 3 = some (0x0000000000000000, 0x1004) := by decide
theorem test_sltu_is_unsigned : stepped (at1000 0x0020B1B3 [(1, 0x0000000000000000), (2, 0xFFFFFFFFFFFFFFFF)]) 3 = some (0x0000000000000001, 0x1004) := by decide
theorem test_sltu_not_less : stepped (at1000 0x0020B1B3 [(1, 0x8000000000000000), (2, 0x7FFFFFFFFFFFFFFF)]) 3 = some (0x0000000000000000, 0x1004) := by decide
theorem test_xor_bits : stepped (at1000 0x0020C1B3 [(1, 0xFF00FF00FF00FF00), (2, 0x0FF00FF00FF00FF0)]) 3 = some (0xF0F0F0F0F0F0F0F0, 0x1004) := by decide
theorem test_or_bits : stepped (at1000 0x0020E1B3 [(1, 0xFF00FF00FF00FF00), (2, 0x0FF00FF00FF00FF0)]) 3 = some (0xFFF0FFF0FFF0FFF0, 0x1004) := by decide
theorem test_and_bits : stepped (at1000 0x0020F1B3 [(1, 0xFF00FF00FF00FF00), (2, 0x0FF00FF00FF00FF0)]) 3 = some (0x0F000F000F000F00, 0x1004) := by decide
theorem test_srl_uses_six_bits : stepped (at1000 0x0020D1B3 [(1, 0x8000000000000000), (2, 0x000000000000007F)]) 3 = some (0x0000000000000001, 0x1004) := by decide
theorem test_sra_copies_the_sign : stepped (at1000 0x4020D1B3 [(1, 0x8000000000000000), (2, 0x0000000000000004)]) 3 = some (0xF800000000000000, 0x1004) := by decide
theorem test_sra_uses_six_bits : stepped (at1000 0x4020D1B3 [(1, 0x8000000000000000), (2, 0x0000000000000100)]) 3 = some (0x8000000000000000, 0x1004) := by decide
-- V13
theorem test_addiw_wraps_at_32_bits : stepped (at1000 0x0010819B [(1, 0x000000007FFFFFFF)]) 3 = some (0xFFFFFFFF80000000, 0x1004) := by decide
theorem test_addiw_ignores_the_high_half : stepped (at1000 0x0000819B [(1, 0xFFFFFFFF7FFFFFFF)]) 3 = some (0x000000007FFFFFFF, 0x1004) := by decide
theorem test_slliw_sign_extends : stepped (at1000 0x0010919B [(1, 0xFFFFFFFFC0000000)]) 3 = some (0xFFFFFFFF80000000, 0x1004) := by decide
theorem test_slliw_by_0 : stepped (at1000 0x0000919B [(1, 0xABCDEF0180000001)]) 3 = some (0xFFFFFFFF80000001, 0x1004) := by decide
theorem test_srliw_ignores_the_high_half : stepped (at1000 0x0010D19B [(1, 0xFFFFFFFF80000000)]) 3 = some (0x0000000040000000, 0x1004) := by decide
theorem test_srliw_by_0_sign_extends : stepped (at1000 0x0000D19B [(1, 0x0000000080000000)]) 3 = some (0xFFFFFFFF80000000, 0x1004) := by decide
theorem test_sraiw_sign_is_bit_31 : stepped (at1000 0x4010D19B [(1, 0x000000017FFFFFFF)]) 3 = some (0x000000003FFFFFFF, 0x1004) := by decide
theorem test_sraiw_copies_the_sign : stepped (at1000 0x4040D19B [(1, 0x00000000F0000000)]) 3 = some (0xFFFFFFFFFF000000, 0x1004) := by decide
theorem test_addw_drops_the_carry : stepped (at1000 0x002081BB [(1, 0x00000000FFFFFFFF), (2, 0x0000000000000001)]) 3 = some (0x0000000000000000, 0x1004) := by decide
theorem test_addw_ignores_the_high_half : stepped (at1000 0x002081BB [(1, 0x0000000100000000), (2, 0x0000000200000005)]) 3 = some (0x0000000000000005, 0x1004) := by decide
theorem test_subw_wraps : stepped (at1000 0x402081BB [(1, 0x0000000080000000), (2, 0x0000000000000001)]) 3 = some (0x000000007FFFFFFF, 0x1004) := by decide
theorem test_subw_ignores_the_high_half : stepped (at1000 0x402081BB [(1, 0xFFFFFFFF00000003), (2, 0x1234567800000003)]) 3 = some (0x0000000000000000, 0x1004) := by decide
theorem test_sllw_uses_five_bits : stepped (at1000 0x002091BB [(1, 0x00000000FFFFFFFF), (2, 0x000000000000003F)]) 3 = some (0xFFFFFFFF80000000, 0x1004) := by decide
theorem test_sllw_by_32_is_by_0 : stepped (at1000 0x002091BB [(1, 0x0000000000000001), (2, 0x0000000000000020)]) 3 = some (0x0000000000000001, 0x1004) := by decide
theorem test_srlw_by_32_is_by_0 : stepped (at1000 0x0020D1BB [(1, 0xFFFFFFFF80000000), (2, 0x0000000000000020)]) 3 = some (0xFFFFFFFF80000000, 0x1004) := by decide
theorem test_srlw_ignores_the_high_half : stepped (at1000 0x0020D1BB [(1, 0xFFFFFFFFFFFFFFFF), (2, 0x0000000000000004)]) 3 = some (0x000000000FFFFFFF, 0x1004) := by decide
theorem test_sraw_uses_five_bits : stepped (at1000 0x4020D1BB [(1, 0x0000000080000000), (2, 0x0000000000000024)]) 3 = some (0xFFFFFFFFF8000000, 0x1004) := by decide
theorem test_sraw_sign_is_bit_31 : stepped (at1000 0x4020D1BB [(1, 0xFFFFFFFF7FFFFFFF), (2, 0x000000000000001E)]) 3 = some (0x0000000000000001, 0x1004) := by decide

/-- ECALL and EBREAK change nothing but the report (V14). -/
theorem test_ecall_exits : next (at1000 0x00088573 [(1, 0x11), (2, 0x22)]) =
    some { at1000 0x00088573 [(1, 0x11), (2, 0x22)] with exit := some .syscall } := by decide
theorem test_ebreak_exits : next (at1000 0x001F8FF3 [(1, 0x11), (2, 0x22)]) =
    some { at1000 0x001F8FF3 [(1, 0x11), (2, 0x22)] with exit := some .notImplemented } := by decide
/-- A word in no row is an exit that carries it (V14). -/
theorem test_invalid_opcode_exits : next (at1000 0x00200073 [(1, 0x11)]) =
    some { at1000 0x00200073 [(1, 0x11)] with exit := some (.invalidOpcode 0x00200073) } := by decide
/-- Order of events: the fetch's bounds come before decoding, decoding before any access (V5, V15). -/
theorem test_fetch_bounds : faultOf (atPc 0xFFFD) = some (.boundsViolation 0xFFFD 4)
    ∧ faultOf (atPc 0xFFFFFFFFFFFFFFFC) = some (.boundsViolation 0xFFFFFFFFFFFFFFFC 4)
    ∧ exitOf (atPc 0xFFFC) = some (.invalidOpcode 0) := by decide
theorem test_decode_before_access : exitOf (at1000 0x00007003 [(0, 0xFFFFFFFFFFFFFFFF)]) = some (.invalidOpcode 0x00007003) := by
  decide
/-- A pc that is no multiple of 4 fetches like any other (V5). -/
theorem test_misaligned_fetch :
    stepped (State.withFetchWord { start with pc := 0x1002 } 32 0x00100093) 1 = some (1, 0x1006) := by decide
/-- A store over its own instruction (V15). -/
theorem test_store_over_itself : stored (at1000 0x00112023 [(1, 0x73), (2, 0x1000)]) 0x1000 =
    some ([0x73, 0, 0, 0, 0, 0, 0, 0, 0, 0, 0, 0, 0, 0, 0, 0], 0x1004) := by decide

/-! ## Boot, the host, the state after reset -/

def segments (gs : List Segment) : Except Fault State :=
  loadImage (construct { memSize := 0x10000, entry := 0x1000, xReset := Vector.replicate 31 0, image := [] }) gs

def segmentBytes (gs : List Segment) (a n : Nat) : Option (List Byte × Word) :=
  match segments gs with
  | .ok s => some (s.mem.bytes a n, s.curAlloc)
  | .error _ => none

/-- S7: a segment at address 0 is skipped; the later of two overlapping segments stays; the cursor is the largest end. -/
theorem test_load_skips_address_zero :
    segmentBytes [⟨0, [0x11, 0x22, 0x33, 0x44]⟩, ⟨0x1000, [0xAA, 0xBB, 0xCC]⟩] 0 4 = some ([0, 0, 0, 0], 0x1003) := by decide
theorem test_load_overlap :
    segmentBytes [⟨0x1000, [0xAA, 0xBB, 0xCC, 0xDD]⟩, ⟨0x1002, [0x11, 0x22]⟩] 0x1000 4
      = some ([0xAA, 0xBB, 0x11, 0x22], 0x1004) := by decide
theorem test_load_out_of_bounds : segments [⟨0xFFFF, [1, 2]⟩] = .error (.boundsViolation 0xFFFF 2) := by decide
/-- S8: after the host writes pc + 4 the next step fetches there. -/
theorem test_resume_past_syscall :
    ((next (at1000 0x00000073 [])).map State.resumePastSyscall).map State.pc = some 0x1004 := by decide
/-- From reset with nothing placed, the first step fetches zeros (R256); with a word placed it runs it. -/
theorem test_reset_runs_zeros : exitOf State.reset = some (.invalidOpcode 0) := by decide
theorem test_reset_with_fetch_word : stepped (State.reset.withFetchWord 32 0x00A00093) 1 = some (10, 0x1004) := by decide
/-- Writing what an unlisted address reads as removes the cell: equal memories are equal data. -/
theorem test_memory_canonical : (Memory.blank 16).setBytes 3 [1, 2, 0, 4] = ⟨16, [(3, 1), (4, 2), (6, 4)]⟩
    ∧ ((Memory.blank 16).setBytes 3 [1, 2]).setBytes 3 [0, 0] = Memory.blank 16 := by decide

/-! ## Witnesses: for every statement that has hypotheses, a state and operands that meet all of them together, each
clause at a boundary of its range -/

/-- Does the word decode to this instruction? -/
def reads (w : InstrWord) (i : Instr) : Bool := decodeWord w == .ok i

theorem test_witness_DecodeOfEncodeIsTheInstruction :
    (Instr.bgeu 31 0 (-4096)).wellFormed = true ∧ (Instr.jal 31 1048574).wellFormed = true := by decide

theorem test_witness_EncodeOfDecodeIsTheWord :
    reads 0x8020F063 (.bgeu 1 2 (-4096)) = true ∧ Instr.bgeu 1 2 (-4096) ≠ .ecall ∧ Instr.bgeu 1 2 (-4096) ≠ .ebreak := by
  decide

/-- A word that decodes and that some row matches, and a word that no row matches. -/
theorem test_witness_DispatchFollowsTheOpcodeTable :
    reads 0x43F0D193 (.srai 3 1 63) = true
    ∧ opcodeTable.any (fun r => 0x43F0D193#32 &&& r.mask == r.bits) = true
    ∧ opcodeTable.any (fun r => 0x44005013#32 &&& r.mask == r.bits) = false := ⟨by decide, rfl, rfl⟩

theorem test_witness_UnlistedOpcodesAreInvalid :
    ∀ w ∈ ([0x00000000, 0xFFFFFFFF, 0x0000000F] : List InstrWord), slice w 6 0 ∉
      ([0x37, 0x17, 0x6F, 0x67, 0x63, 0x03, 0x23, 0x13, 0x33, 0x73, 0x1B, 0x3B] : List Nat) := by simp [slice]

/-- One word of each of the twelve opcodes, at the edge between the listed and the unlisted combinations. -/
theorem test_witness_UnlistedCombinationsAreInvalid :
    slice 0x00001067 6 0 = 0x67 ∧ slice 0x00003063 6 0 = 0x63 ∧ slice 0x00007003 6 0 = 0x03 ∧ slice 0x00004023 6 0 = 0x23
    ∧ slice 0x44005013 6 0 = 0x13 ∧ slice 0x40001033 6 0 = 0x33 ∧ slice 0x00200073 6 0 = 0x73 ∧ slice 0x4200501B 6 0 = 0x1B
    ∧ slice 0x4000103B 6 0 = 0x3B ∧ slice 0xFFFFF037 6 0 = 0x37 ∧ slice 0xFFFFFF97 6 0 = 0x17
    ∧ slice 0xFFFFFFEF 6 0 = 0x6F := by decide

/-- A word of each format, each carrying its immediate (R81). -/
theorem test_witness_FieldsOfFormatsRISU :
    reads 0x002080B3 (.add 1 1 2) = true
    ∧ reads 0x80000013 (.addi 0 0 (-2048)) = true ∧ immIOf (.addi 0 0 (-2048)) = some (-2048)
    ∧ reads 0x7E002FA3 (.sw 0 0 2047) = true ∧ immSOf (.sw 0 0 2047) = some 2047
    ∧ reads 0x80000037 (.lui 0 0x80000) = true ∧ immUOf (.lui 0 0x80000) = some 0x80000
    ∧ reads 0x00100073 .ebreak = true := by decide

theorem test_witness_FieldsOfFormatsBJ :
    reads 0x80000063 (.beq 0 0 (-4096)) = true ∧ immBOf (.beq 0 0 (-4096)) = some (-4096)
    ∧ reads 0x7FFFF06F (.jal 0 1048574) = true ∧ immJOf (.jal 0 1048574) = some 1048574 := by decide

theorem test_witness_FieldsOfShiftImmediates :
    reads 0x03F09193 (.slli 3 1 63) = true ∧ shamt6Carried (.slli 3 1 63) = some 63
    ∧ reads 0x41F0D19B (.sraiw 3 1 31) = true ∧ shamt5Carried (.sraiw 3 1 31) = some 31
    ∧ slice 0x0200101B 6 0 = 0x1B ∧ slice 0x0200101B 14 12 = 1 ∧ slice 0x0200101B 25 25 = 1
    ∧ slice 0x4200501B 6 0 = 0x1B ∧ slice 0x4200501B 14 12 = 5 ∧ slice 0x4200501B 25 25 = 1 := by decide

/-- An instruction with rd = x0 that is no load, and a load to x0 of the last doubleword and of one a byte further. -/
theorem test_witness_RegisterZeroIsHardwired :
    (31 : Reg) ≠ 0 ∧ (next (at1000 0x00508013 [(1, 5)])).isSome = true
    ∧ destination (.jal 0 (-8)) = some 0 ∧ loadAccess (.jal 0 (-8)) start = none
    ∧ destination (.ld 0 1 0) = some 0
    ∧ loadAccess (.ld 0 1 0) (withRegs [(1, 0xFFF8)]) = some (0xFFF8, 8)
    ∧ (0xFFF8 : Word).toNat + 8 ≤ (withRegs [(1, 0xFFF8)]).mem.size
    ∧ loadAccess (.ld 0 1 0) (withRegs [(1, 0xFFF9)]) = some (0xFFF9, 8)
    ∧ (withRegs [(1, 0xFFF9)]).mem.size < (0xFFF9 : Word).toNat + 8 := by decide

/-- The last pc where a fetch fits, and the first where it does not (V5). -/
theorem test_witness_FetchReadsFourBytesAtThePc :
    (atPc 0xFFFC).pc.toNat + 4 ≤ (atPc 0xFFFC).mem.size ∧ (atPc 0xFFFD).mem.size < (atPc 0xFFFD).pc.toNat + 4 := by decide

theorem test_witness_StepRunsTheDecodedInstruction :
    (at1000 0x00112023 []).pc.toNat + 4 ≤ (at1000 0x00112023 []).mem.size
    ∧ decodeBytes ((at1000 0x00112023 []).mem.bytes (at1000 0x00112023 []).pc.toNat 4) = .ok (.sw 2 1 0, []) := by decide

theorem test_witness_MemReadIsTheLittleEndianSum :
    8 ∈ ([1, 2, 4, 8] : List Nat) ∧ (0xFFF8 : Word).toNat + 8 ≤ (Memory.blank 0x10000).size
    ∧ (Memory.blank 0x10000).size < (0xFFF9 : Word).toNat + 8 := by decide

theorem test_witness_MemWriteStoresEachByte :
    (Memory.blank 0x10000).wf ∧ 8 ∈ ([1, 2, 4, 8] : List Nat) ∧ (0xFFF8 : Word).toNat + 8 ≤ (Memory.blank 0x10000).size
    ∧ (Memory.blank 0x10000).size < (0xFFF9 : Word).toNat + 8 := by decide

theorem test_witness_MixedWidthAccessesSeeTheBytes :
    start.wf ∧ (0xFFFC : Word).toNat + 4 ≤ start.mem.size := by decide

/-- A word of the row, for every statement whose first clause says which words decode to its instructions. -/
theorem test_witness_LuiWritesTheUpperImmediate : 0x800002B7#32 &&& 0x0000007F#32 = 0x00000037#32 := by decide
theorem test_witness_AuipcAddsTheUpperImmediateToThePc : 0xFFFFF317#32 &&& 0x0000007F#32 = 0x00000017#32 := by decide
theorem test_witness_JalLinksAndJumps : 0xFF9FF06F#32 &&& 0x0000007F#32 = 0x0000006F#32 := by decide
theorem test_witness_JalrLinksAndJumpsToTheOldBase :
    0x000080E7#32 &&& 0x0000707F#32 = 0x00000067#32 ∧ slice 0x00001067 6 0 = 0x67 ∧ slice 0x00001067 14 12 ≠ 0 := by decide

/-- For the branches also sources for which the relation holds and sources for which it does not. -/
theorem test_witness_BeqBneBranchOnEquality :
    0x00208463#32 &&& 0x0000707F#32 = 0x00000063#32 ∧ 0xFE209EE3#32 &&& 0x0000707F#32 = 0x00001063#32
    ∧ (withRegs [(1, 5), (2, 5)]).readReg 1 = (withRegs [(1, 5), (2, 5)]).readReg 2
    ∧ (withRegs [(1, 5)]).readReg 1 ≠ (withRegs [(1, 5)]).readReg 2 := by decide
theorem test_witness_BltBgeBranchOnSignedOrder :
    0x0020C863#32 &&& 0x0000707F#32 = 0x00004063#32 ∧ 0xFE20D8E3#32 &&& 0x0000707F#32 = 0x00005063#32
    ∧ ((withRegs [(1, 0xFFFFFFFFFFFFFFFF)]).readReg 1).toInt < ((withRegs [(1, 0xFFFFFFFFFFFFFFFF)]).readReg 2).toInt
    ∧ ¬ ((withRegs [(1, 3), (2, 3)]).readReg 1).toInt < ((withRegs [(1, 3), (2, 3)]).readReg 2).toInt := by decide
theorem test_witness_BltuBgeuBranchOnUnsignedOrder :
    0x7E20EFE3#32 &&& 0x0000707F#32 = 0x00006063#32 ∧ 0x8020F063#32 &&& 0x0000707F#32 = 0x00007063#32
    ∧ ((withRegs [(2, 0xFFFFFFFFFFFFFFFF)]).readReg 1).toNat < ((withRegs [(2, 0xFFFFFFFFFFFFFFFF)]).readReg 2).toNat
    ∧ ¬ ((withRegs [(1, 3), (2, 3)]).readReg 1).toNat < ((withRegs [(1, 3), (2, 3)]).readReg 2).toNat := by decide

/-- For the loads and the stores also the last address that is inside memory and the first that is not. -/
theorem test_witness_LbLbuLoadAByte :
    0xFFF10183#32 &&& 0x0000707F#32 = 0x00000003#32 ∧ 0x00714183#32 &&& 0x0000707F#32 = 0x00004003#32
    ∧ (effectiveAddress (withRegs [(2, 0x10000)]) 2 (-1)).toNat + 1 ≤ (withRegs [(2, 0x10000)]).mem.size
    ∧ (withRegs [(2, 0x10000)]).mem.size < (effectiveAddress (withRegs [(2, 0x10000)]) 2 0).toNat + 1 := by decide
theorem test_witness_LhLhuLoadAHalfword :
    0x00111183#32 &&& 0x0000707F#32 = 0x00001003#32 ∧ 0x00715183#32 &&& 0x0000707F#32 = 0x00005003#32
    ∧ (effectiveAddress (withRegs [(2, 0x10000)]) 2 (-2)).toNat + 2 ≤ (withRegs [(2, 0x10000)]).mem.size
    ∧ (withRegs [(2, 0x10000)]).mem.size < (effectiveAddress (withRegs [(2, 0x10000)]) 2 (-1)).toNat + 2 := by decide
theorem test_witness_LwLwuLdLoadWords :
    0x00312183#32 &&& 0x0000707F#32 = 0x00002003#32 ∧ 0x00416183#32 &&& 0x0000707F#32 = 0x00006003#32
    ∧ 0x0001B183#32 &&& 0x0000707F#32 = 0x00003003#32
    ∧ (effectiveAddress (withRegs [(2, 0x10000)]) 2 (-4)).toNat + 4 ≤ (withRegs [(2, 0x10000)]).mem.size
    ∧ (withRegs [(2, 0x10000)]).mem.size < (effectiveAddress (withRegs [(2, 0x10000)]) 2 (-3)).toNat + 4
    ∧ (effectiveAddress (withRegs [(2, 0x10000)]) 2 (-8)).toNat + 8 ≤ (withRegs [(2, 0x10000)]).mem.size
    ∧ (withRegs [(2, 0x10000)]).mem.size < (effectiveAddress (withRegs [(2, 0x10000)]) 2 (-7)).toNat + 8 := by decide
theorem test_witness_SbShStoreTheLowBytes :
    0x001107A3#32 &&& 0x0000707F#32 = 0x00000023#32 ∧ 0x001110A3#32 &&& 0x0000707F#32 = 0x00001023#32
    ∧ (withRegs [(2, 0x10000)]).wf
    ∧ (effectiveAddress (withRegs [(2, 0x10000)]) 2 (-1)).toNat + 1 ≤ (withRegs [(2, 0x10000)]).mem.size
    ∧ (withRegs [(2, 0x10000)]).mem.size < (effectiveAddress (withRegs [(2, 0x10000)]) 2 0).toNat + 1
    ∧ (effectiveAddress (withRegs [(2, 0x10000)]) 2 (-2)).toNat + 2 ≤ (withRegs [(2, 0x10000)]).mem.size
    ∧ (withRegs [(2, 0x10000)]).mem.size < (effectiveAddress (withRegs [(2, 0x10000)]) 2 (-1)).toNat + 2 := by decide
theorem test_witness_SwSdStoreWords :
    0x001120A3#32 &&& 0x0000707F#32 = 0x00002023#32 ∧ 0x001131A3#32 &&& 0x0000707F#32 = 0x00003023#32
    ∧ (withRegs [(2, 0x10000)]).wf
    ∧ (effectiveAddress (withRegs [(2, 0x10000)]) 2 (-4)).toNat + 4 ≤ (withRegs [(2, 0x10000)]).mem.size
    ∧ (withRegs [(2, 0x10000)]).mem.size < (effectiveAddress (withRegs [(2, 0x10000)]) 2 (-3)).toNat + 4
    ∧ (effectiveAddress (withRegs [(2, 0x10000)]) 2 (-8)).toNat + 8 ≤ (withRegs [(2, 0x10000)]).mem.size
    ∧ (withRegs [(2, 0x10000)]).mem.size < (effectiveAddress (withRegs [(2, 0x10000)]) 2 (-7)).toNat + 8 := by decide

theorem test_witness_AddiAddsTheImmediate : 0x00118193#32 &&& 0x0000707F#32 = 0x00000013#32 := by decide
theorem test_witness_SltiSltiuSetOnOrder :
    0x8000A193#32 &&& 0x0000707F#32 = 0x00002013#32 ∧ 0x8000B193#32 &&& 0x0000707F#32 = 0x00003013#32 := by decide
theorem test_witness_XoriOriAndiAreBitwise :
    0xFFF0C193#32 &&& 0x0000707F#32 = 0x00004013#32 ∧ 0x8000E193#32 &&& 0x0000707F#32 = 0x00006013#32
    ∧ 0x8000F193#32 &&& 0x0000707F#32 = 0x00007013#32 := by decide
theorem test_witness_ShiftImmediatesShift :
    0x03F09193#32 &&& 0xFC00707F#32 = 0x00001013#32 ∧ 0x03F0D193#32 &&& 0xFC00707F#32 = 0x00005013#32
    ∧ 0x43F0D193#32 &&& 0xFC00707F#32 = 0x40005013#32
    ∧ slice 0x04001013 6 0 = 0x13 ∧ slice 0x04001013 14 12 = 1 ∧ slice 0x04001013 31 26 ≠ 0
    ∧ slice 0x44005013 6 0 = 0x13 ∧ slice 0x44005013 14 12 = 5 ∧ slice 0x44005013 31 26 ≠ 0
    ∧ slice 0x44005013 31 26 ≠ 16 := by decide
theorem test_witness_AddSubAreModular :
    0x002080B3#32 &&& 0xFE00707F#32 = 0x00000033#32 ∧ 0x402001B3#32 &&& 0xFE00707F#32 = 0x40000033#32 := by decide
theorem test_witness_SltSltuSetOnOrder :
    0x0020A1B3#32 &&& 0xFE00707F#32 = 0x00002033#32 ∧ 0x0020B1B3#32 &&& 0xFE00707F#32 = 0x00003033#32 := by decide
theorem test_witness_XorOrAndAreBitwise :
    0x0020C1B3#32 &&& 0xFE00707F#32 = 0x00004033#32 ∧ 0x0020E1B3#32 &&& 0xFE00707F#32 = 0x00006033#32
    ∧ 0x0020F1B3#32 &&& 0xFE00707F#32 = 0x00007033#32 := by decide
theorem test_witness_RegisterShiftsUseSixBits :
    0x002091B3#32 &&& 0xFE00707F#32 = 0x00001033#32 ∧ 0x0020D1B3#32 &&& 0xFE00707F#32 = 0x00005033#32
    ∧ 0x4020D1B3#32 &&& 0xFE00707F#32 = 0x40005033#32 := by decide
theorem test_witness_WordAddSubSignExtend :
    0x8000819B#32 &&& 0x0000707F#32 = 0x0000001B#32 ∧ 0x002081BB#32 &&& 0xFE00707F#32 = 0x0000003B#32
    ∧ 0x402081BB#32 &&& 0xFE00707F#32 = 0x4000003B#32 := by decide
theorem test_witness_WordShiftImmediatesSignExtend :
    0x01F0919B#32 &&& 0xFE00707F#32 = 0x0000101B#32 ∧ 0x01F0D19B#32 &&& 0xFE00707F#32 = 0x0000501B#32
    ∧ 0x41F0D19B#32 &&& 0xFE00707F#32 = 0x4000501B#32
    ∧ slice 0x0200101B 6 0 = 0x1B ∧ slice 0x0200101B 14 12 = 1 ∧ slice 0x0200101B 25 25 = 1 := by decide
theorem test_witness_WordRegisterShiftsSignExtend :
    0x002091BB#32 &&& 0xFE00707F#32 = 0x0000103B#32 ∧ 0x0020D1BB#32 &&& 0xFE00707F#32 = 0x0000503B#32
    ∧ 0x4020D1BB#32 &&& 0xFE00707F#32 = 0x4000503B#32 := by decide
theorem test_witness_EcallTakesTheSyscallExit : 0x00088573#32 &&& 0xFFF0707F#32 = 0x00000073#32 := by decide
theorem test_witness_EbreakTakesTheNotImplementedExit : 0x001F8FF3#32 &&& 0xFFF0707F#32 = 0x00100073#32 := by decide

/-- Two states that differ in the high half of x1 only. -/
theorem test_witness_WordResultsIgnoreHighHalves :
    reads 0x0020D1BB (.srlw 3 1 2) = true ∧ isWordOp (.srlw 3 1 2) = true ∧ destination (.srlw 3 1 2) = some 3
    ∧ ∀ r, ((withRegs [(1, 0xFFFFFFFF80000000)]).readReg r).toNat % 2 ^ 32
        = ((withRegs [(1, 0x80000000)]).readReg r).toNat % 2 ^ 32 := by decide

theorem test_witness_StepKeepsTheStateWellFormed :
    (running 0xFE113C23 [(1, 0x1122334455667788), (2, 0x10000)] 0 []).wf
    ∧ (next (running 0xFE113C23 [(1, 0x1122334455667788), (2, 0x10000)] 0 [])).isSome = true := by decide

theorem test_witness_ExitsChangeNothing : exitOf (at1000 0x00100073 []) = some .notImplemented := by decide

/-- A step of each kind of report: `stepped` and the three exits. -/
theorem test_witness_ExitsHaveExactlyTheirCauses :
    (next (at1000 0x00000013 [])).map State.exit = some none ∧ exitOf (at1000 0x00000073 []) = some .syscall
    ∧ exitOf (at1000 0x00100073 []) = some .notImplemented
    ∧ exitOf (at1000 0x00200073 []) = some (.invalidOpcode 0x00200073) := by decide

/-- A step that jumps, one that advances and one that exits. -/
theorem test_witness_PcAdvancesOrJumps :
    stepped (at1000 0x020000EF []) 1 = some (0x1004, 0x1020) ∧ stepped (at1000 0x00000013 []) 0 = some (0, 0x1004)
    ∧ exitOf (at1000 0x00000073 []) = some .syscall := by decide

/-- A step that stores and one that writes a register, from well-formed states. -/
theorem test_witness_OneStepTouchesOnlyItsOwn :
    (at1000 0x00110023 [(1, 0x88), (2, 0x2000)]).wf
    ∧ (next (at1000 0x00110023 [(1, 0x88), (2, 0x2000)])).map State.exit = some none
    ∧ storeAccess (.sb 2 1 0) (at1000 0x00110023 [(1, 0x88), (2, 0x2000)]) = some (0x2000, 1)
    ∧ (at1000 0x00508013 []).wf ∧ (next (at1000 0x00508013 [])).map State.exit = some none
    ∧ storeAccess (.addi 0 1 5) (at1000 0x00508013 []) = none ∧ destination (.addi 0 1 5) ≠ some 1 := by decide

/-- A step with a next state and a step that faults. -/
theorem test_witness_StepIgnoresReportAndCursor :
    (next (at1000 0x00508013 [])).isSome = true ∧ faultOf (atPc 0xFFFD) = some (.boundsViolation 0xFFFD 4) := by decide

/-- The word a fetch gives. -/
def fetched (s : State) : Option InstrWord :=
  match fetchWord s with
  | .ok w => some w
  | .error _ => none

/-- A store into the word after the next, and the fetch there; the last pc where a fetch fits. -/
theorem test_witness_StoresAreSeenByLaterFetches :
    (at1000 0x00312823 [(2, 0x1000), (3, 0x13)]).wf
    ∧ fetched (at1000 0x00312823 [(2, 0x1000), (3, 0x13)]) = some 0x00312823
    ∧ reads 0x00312823 (.sw 2 3 16) = true
    ∧ storeAccess (.sw 2 3 16) (at1000 0x00312823 [(2, 0x1000), (3, 0x13)]) = some (0x1010, 4)
    ∧ storeData (.sw 2 3 16) = some 3
    ∧ (next (at1000 0x00312823 [(2, 0x1000), (3, 0x13)])).isSome = true
    ∧ (0x1010 : Word).toNat + 4 ≤ (at1000 0x00312823 [(2, 0x1000), (3, 0x13)]).mem.size
    ∧ (0xFFFC : Word).toNat + 4 ≤ (at1000 0x00312823 [(2, 0x1000), (3, 0x13)]).mem.size := by decide

/-- The last word and the last doubleword of memory; the two addresses are the same after the store. -/
theorem test_witness_LoadAfterStoreGivesTheValue :
    (withRegs [(2, 0x10000)]).wf ∧ (3 : Reg) ≠ 0
    ∧ (effectiveAddress (withRegs [(2, 0x10000)]) 2 (-4)).toNat + 4 ≤ (withRegs [(2, 0x10000)]).mem.size
    ∧ (effectiveAddress (withRegs [(2, 0x10000)]) 2 (-8)).toNat + 8 ≤ (withRegs [(2, 0x10000)]).mem.size
    ∧ (next (at1000 0xFE113C23 [(1, 0x1122334455667788), (2, 0x10000)])).map (fun t => effectiveAddress t 2 (-8))
        = some (effectiveAddress (withRegs [(2, 0x10000)]) 2 (-8)) := by decide

/-- A segment that is skipped, one that just fits, and one that is a byte too long. -/
theorem test_witness_LoadSegmentAndAlloc :
    start.wf ∧ (⟨0, [1]⟩ : Segment).loadAddr = 0
    ∧ (⟨0xFFFE, [1, 2]⟩ : Segment).loadAddr ≠ 0 ∧ (0xFFFE : Word).toNat + 2 ≤ start.mem.size
    ∧ (⟨0xFFFF, [1, 2]⟩ : Segment).loadAddr ≠ 0 ∧ start.mem.size < (0xFFFF : Word).toNat + 2 := by decide

def oneSegment : Params :=
  { memSize := 4, entry := 0, xReset := Vector.replicate 31 7, image := [⟨0, [9]⟩, ⟨1, [0x11, 0x22, 0x33]⟩] }

/-- The first four bytes after a boot that succeeds. -/
def bootBytes (p : Params) : Option (List Byte) :=
  match boot p with
  | .ok s => some (s.mem.bytes 0 4)
  | .error _ => none

/-- The smallest memory, a skipped segment and one that just fills it: the boot succeeds. -/
theorem test_witness_BootGivesTheResetState : oneSegment.sizeOk
    ∧ bootBytes oneSegment = some [0, 0x11, 0x22, 0x33] := by decide

theorem test_witness_HostResumesPastTheEcall : exitOf (at1000 0x00000073 []) = some .syscall := by decide

/-- The host writes the last bytes of memory, and one byte past the end. -/
theorem test_witness_HostWritesObeyTheContract :
    start.wf ∧ (0xFFFE : Word).toNat + ([1, 2] : List Byte).length ≤ start.mem.size
    ∧ start.mem.size < (0xFFFF : Word).toNat + ([1, 2] : List Byte).length := by decide

/-- The pc of a driver's run that its bound ends. -/
def outOfFuelPc (k : Nat) (s : State) : Option Word :=
  match drive k s with
  | .outOfFuel t => some t.pc
  | _ => none

/-- The exit a driver's run ends at. -/
def driveExit (k : Nat) (s : State) : Option VmExit :=
  match drive k s with
  | .exited e _ => some e
  | _ => none

/-- A driver's run that ends at an exit, at once and after a step, one that ends at the fault, and two that the bound
ends. -/
theorem test_witness_ExitsRepeatAndEndTheMinimalDriver :
    drive 1 (at1000 0x00000073 []) = .exited .syscall { at1000 0x00000073 [] with exit := some .syscall }
    ∧ drive 1 (atPc 0xFFFD) = .dead (.boundsViolation 0xFFFD 4)
    ∧ outOfFuelPc 1 (at1000 0x00000013 []) = some 0x1004
    ∧ outOfFuelPc 0 (at1000 0x00000073 []) = some 0x1000
    ∧ driveExit 2 (running 0x00000013 [] 0x1004 [0x73, 0, 0, 0]) = some .syscall
    ∧ exitOf (at1000 0x00000073 []) ≠ none := by decide

end Sys2Proof.Tests
end

section
/-! SUPPORT. The register file, the whole-state invariant, the two fields no step reads, and the boot (`10_state.md`):
what a step leaves of memory, what an instruction with rd = x0 still does, that the report and the cursor do not
influence a step, and what loading segments leaves of the state. -/

namespace Sys2Proof.Proofs

open Sys2Proof Sys2Proof.Machine Sys2Proof.Claims Sys2Proof.Laws

/-! ## The invariant of the state (R26, D1) -/

/-- What a step leaves of memory: all of it, or all but the bytes of one store inside memory. -/
theorem step_memory {s t : State} (h : step s = .next t) :
    t.mem = s.mem ∨ ∃ a bs, a + bs.length ≤ s.mem.size ∧ t.mem = s.mem.setBytes a bs := by
  obtain ⟨-, hfault⟩ | ⟨w, -, -, ⟨e, -, hexit⟩ | ⟨i, -, hexec⟩⟩ := step_cases s
  · rw [hfault] at h
    cases h
  · rw [hexit] at h
    cases Host.Outcome.next.inj h
    exact .inl rfl
  · exact exec_memory (hexec ▸ h)

theorem step_mem_size {s t : State} (h : step s = .next t) : t.mem.size = s.mem.size := by
  obtain hmem | ⟨a, bs, -, hmem⟩ := step_memory h <;> simp [hmem]

theorem step_mem_wf {s t : State} (hs : s.mem.wf) (h : step s = .next t) : t.mem.wf := by
  obtain hmem | ⟨a, bs, hin, hmem⟩ := step_memory h <;> rw [hmem]
  · exact hs
  · exact setBytes_wf hs hin

/-- The invariant of every reachable state. -/
theorem step_wf {s t : State} (hs : s.wf) (h : step s = .next t) : t.wf := by
  obtain ⟨hmem, hsize⟩ := hs
  exact ⟨step_mem_wf hmem h, step_mem_size h ▸ hsize⟩

/-- Settles O43: a step leaves memory as it is or stores bytes inside it, and both keep the canonical form. -/
theorem stepKeepsTheStateWellFormed : Obligations.StepKeepsTheStateWellFormed :=
  fun _ _ hs h => ⟨step_wf hs h, step_mem_size h⟩

/-! ## Modular addresses (R122) -/

/-- Adding a sign-extended immediate is integer addition modulo 2^64. -/
theorem toNat_add_signExtend {n : Nat} (hn : n ≤ 64) (a : Word) (imm : BitVec n) :
    ((a + imm.signExtend 64).toNat : Int) = (a.toNat + imm.toInt) % 2 ^ 64 := by
  have himm : (imm.signExtend 64).toInt = imm.toInt := BitVec.toInt_signExtend_of_le hn
  have hmod := BitVec.toInt_eq_toNat_cond (imm.signExtend 64)
  rw [himm] at hmod
  rw [BitVec.toNat_add]
  split at hmod <;> omega

theorem toNat_add_four (a : Word) : ((a + 4).toNat : Int) = (a.toNat + 4) % 2 ^ 64 := by
  simp [BitVec.toNat_add]

/-! ## Register x0 (R21) -/

/-- The outcome `o` of an instruction run at `s` is a next state that reports `stepped` at `pc` modulo 2^64, with every
register, every byte and the cursor as before. -/
def CompletesAt (s : State) (o : Result) (pc : Int) : Prop :=
  ∃ t, o = .next t ∧ SameRegs s t ∧ SameMemory s t ∧ Stepped s t ∧ (t.pc.toNat : Int) = pc % 2 ^ 64

theorem retire_completesAt {s : State} {target : Word} {pc : Int} (h : (target.toNat : Int) = pc % 2 ^ 64) :
    CompletesAt s (.next (s.retire target)) pc :=
  ⟨_, rfl, fun _ => rfl, ⟨rfl, fun _ => rfl⟩, ⟨rfl, rfl⟩, h⟩

theorem finish_zero_completesAt (v : Word) (s : State) : CompletesAt s (finish 0 v s) (s.pc.toNat + 4) :=
  retire_completesAt (toNat_add_four s.pc)

theorem linkAndJump_zero_completesAt {n : Nat} (hn : n ≤ 64) (base : Word) (imm : BitVec n) (s : State) :
    CompletesAt s (linkAndJump 0 (base + imm.signExtend 64) s) (base.toNat + imm.toInt) :=
  retire_completesAt (toNat_add_signExtend hn base imm)

theorem load_zero_completesAt {n : Nat} (ext : Nat → Word) {rs1 : Reg} {imm : BitVec 12} {s : State}
    (h : (effectiveAddress s rs1 imm).toNat + n ≤ s.mem.size) :
    CompletesAt s (load n ext 0 rs1 imm s) (s.pc.toNat + 4) := by
  rw [load_inside ext 0 h]
  exact finish_zero_completesAt _ s

/-- The pc after an instruction that completes, before the reduction modulo 2^64 (R118). -/
def pcAfter (i : Instr) (s : State) : Int :=
  match jumpTarget i s with
  | some z => z
  | none => (s.pc.toNat : Int) + 4

/-- An instruction with rd = x0 that is no load outside memory: only the pc moves. -/
theorem exec_zero_completesAt {i : Instr} {s : State} (hrd : destination i = some 0)
    (hin : ∀ addr n, loadAccess i s = some (addr, n) → addr.toNat + n ≤ s.mem.size) :
    CompletesAt s (exec i s) (pcAfter i s) := by
  cases i
  case lui | auipc | addi | slti | sltiu | xori | ori | andi | slli | srli | srai | add | sub | sll | slt | sltu | xor
      | srl | sra | or | and | addiw | slliw | srliw | sraiw | addw | subw | sllw | srlw | sraw =>
    cases hrd
    exact finish_zero_completesAt _ s
  case jal | jalr =>
    cases hrd
    exact linkAndJump_zero_completesAt (by decide) _ _ s
  case lb | lh | lw | lbu | lhu | lwu | ld =>
    cases hrd
    exact load_zero_completesAt _ (hin _ _ rfl)
  case beq | bne | blt | bge | bltu | bgeu | sb | sh | sw | sd | ecall | ebreak => cases hrd

/-- A load outside memory is its bounds violation, whatever rd is (D24). -/
theorem exec_load_outside {i : Instr} {s : State} {addr : Word} {n : Nat} (h : loadAccess i s = some (addr, n))
    (hout : s.mem.size < addr.toNat + n) : exec i s = .fault (.boundsViolation addr n) := by
  cases i
  case lb | lh | lw | lbu | lhu | lwu | ld =>
    cases h
    exact load_outside _ _ hout
  all_goals cases h

/-- Settles O10: a write to x0 is the identity, so that an instruction with rd = x0 keeps its pc and its read only. -/
theorem registerZeroIsHardwired : Obligations.RegisterZeroIsHardwired := by
  refine ⟨readReg_zero, writeReg_zero, fun s r q v hr => ?_, fun _ t _ => readReg_zero t,
    fun i s hrd => ⟨fun hin => ?_, fun _ _ => exec_load_outside⟩⟩
  · simp [readReg_writeReg, hr]
  · exact exec_zero_completesAt hrd hin

/-! ## The report and the cursor influence no step (R29, R31) -/

/-- The state with another report and another cursor. -/
abbrev withReport (s : State) (e : Option VmExit) (c : Word) : State := { s with exit := e, curAlloc := c }

/-- The outcome with the cursor of its next state replaced. -/
def withCursor (c : Word) (o : Result) : Result :=
  match o with
  | .next t => .next { t with curAlloc := c }
  | .fault f => .fault f
  | .refused r => .refused r

section
variable (s : State) (e : Option VmExit) (c : Word)

theorem writeReg_withReport (rd : Reg) (v : Word) :
    (withReport s e c).writeReg rd v = withReport (s.writeReg rd v) e c := by
  unfold State.writeReg
  split <;> rfl

theorem finish_withReport (rd : Reg) (v : Word) :
    finish rd v (withReport s e c) = withCursor c (finish rd v s) := by
  rw [finish_eq, writeReg_withReport]
  rfl

theorem linkAndJump_withReport (rd : Reg) (target : Word) :
    linkAndJump rd target (withReport s e c) = withCursor c (linkAndJump rd target s) := by
  rw [linkAndJump_eq, writeReg_withReport]
  rfl

theorem branch_withReport (cond : Word → Word → Bool) (rs1 rs2 : Reg) (imm : BitVec 13) :
    branch cond rs1 rs2 imm (withReport s e c) = withCursor c (branch cond rs1 rs2 imm s) := rfl

theorem load_withReport (n : Nat) (ext : Nat → Word) (rd rs1 : Reg) (imm : BitVec 12) :
    load n ext rd rs1 imm (withReport s e c) = withCursor c (load n ext rd rs1 imm s) := by
  by_cases h : (effectiveAddress s rs1 imm).toNat + n ≤ s.mem.size
  · rw [load_inside ext rd h, ← finish_withReport s e c]
    exact load_inside ext rd h
  · rw [load_outside ext rd (Nat.lt_of_not_le h)]
    exact load_outside ext rd (Nat.lt_of_not_le h)

theorem store_withReport (n : Nat) (rs1 rs2 : Reg) (imm : BitVec 12) :
    store n rs1 rs2 imm (withReport s e c) = withCursor c (store n rs1 rs2 imm s) := by
  by_cases h : (effectiveAddress s rs1 imm).toNat + n ≤ s.mem.size
  · rw [store_inside rs2 h]
    exact store_inside rs2 h
  · rw [store_outside rs2 (Nat.lt_of_not_le h)]
    exact store_outside rs2 (Nat.lt_of_not_le h)

theorem exec_withReport (i : Instr) :
    exec i (withReport s e c) = withCursor c (exec i s) := by
  cases i
  case lui | auipc | addi | slti | sltiu | xori | ori | andi | slli | srli | srai | add | sub | sll | slt | sltu | xor
      | srl | sra | or | and | addiw | slliw | srliw | sraiw | addw | subw | sllw | srlw | sraw =>
    exact finish_withReport s e c _ _
  case jal | jalr => exact linkAndJump_withReport s e c _ _
  case beq | bne | blt | bge | bltu | bgeu => exact branch_withReport s e c _ _ _ _
  case lb | lh | lw | lbu | lhu | lwu | ld => exact load_withReport s e c _ _ _ _ _
  case sb | sh | sw | sd => exact store_withReport s e c _ _ _ _
  case ecall | ebreak => rfl

/-- A step from another report and another cursor is the same step, but for the cursor it carries along. -/
theorem step_withReport : step (withReport s e c) = withCursor c (step s) := by
  obtain ⟨hout, hs⟩ | ⟨w, -, hf, ⟨d, hd, hs⟩ | ⟨i, hd, hs⟩⟩ := step_cases s <;> rw [hs]
  · exact step_of_fetch_error (fetch_outside hout)
  · exact step_of_decode_error hf hd
  · exact (step_of_decode (s := withReport s e c) hf hd).trans (exec_withReport s e c i)

end

/-- Settles O51: changing the report and the cursor commutes with the step. -/
theorem stepIgnoresReportAndCursor : Obligations.StepIgnoresReportAndCursor :=
  fun s e c => ⟨fun _ h => (step_withReport s e c).trans (congrArg (withCursor c) h),
    fun _ h => (step_withReport s e c).trans (congrArg (withCursor c) h)⟩

/-! ## Boot (R32, R250 to R253) -/

/-- What one segment makes of the byte at `a` (R253): the step of `imageByte`. -/
def segmentByte (a : Nat) (b : Byte) (g : Segment) : Byte :=
  if g.loadAddr ≠ 0 ∧ g.loadAddr.toNat ≤ a ∧ a < g.loadAddr.toNat + g.payload.length
  then g.payload.getD (a - g.loadAddr.toNat) 0 else b

/-- What one segment makes of the largest end address (R253): the step of `imageEnd`. -/
def segmentEnd (e : Nat) (g : Segment) : Nat :=
  if g.loadAddr ≠ 0 then max e (g.loadAddr.toNat + g.payload.length) else e

section
variable {g : Segment}

theorem segmentByte_skipped (h : g.loadAddr = 0) (a : Nat) (b : Byte) : segmentByte a b g = b :=
  if_neg fun hg => hg.1 h

theorem segmentByte_loaded (h : g.loadAddr ≠ 0) (a : Nat) (b : Byte) : segmentByte a b g =
    if g.loadAddr.toNat ≤ a ∧ a < g.loadAddr.toNat + g.payload.length
    then g.payload.getD (a - g.loadAddr.toNat) 0 else b := by
  simp only [segmentByte, h, ne_eq, not_false_eq_true, true_and]

theorem segmentEnd_skipped (h : g.loadAddr = 0) (e : Nat) : segmentEnd e g = e := if_neg (not_not_intro h)

theorem segmentEnd_loaded (h : g.loadAddr ≠ 0) (e : Nat) :
    segmentEnd e g = max e (g.loadAddr.toNat + g.payload.length) := if_pos h

end

theorem imageByte_eq_foldl (gs : List Segment) (a : Nat) : imageByte gs a = gs.foldl (segmentByte a) 0 := rfl

theorem imageEnd_eq_foldl (gs : List Segment) : imageEnd gs = gs.foldl segmentEnd 0 := rfl

/-- `t` is `s` with the segments `gs` loaded in order: the bytes and the cursor as they leave them, the rest as before. -/
structure LoadedFrom (s : State) (gs : List Segment) (t : State) : Prop where
  wf : t.wf
  size : t.mem.size = s.mem.size
  pc : t.pc = s.pc
  x : t.x = s.x
  exit : t.exit = s.exit
  cursor : t.curAlloc.toNat = gs.foldl segmentEnd s.curAlloc.toNat
  byte : ∀ a, t.mem.byte a = gs.foldl (segmentByte a) (s.mem.byte a)

theorem LoadedFrom.nil {s : State} (hs : s.wf) : LoadedFrom s [] s :=
  ⟨hs, rfl, rfl, rfl, rfl, rfl, fun _ => rfl⟩

theorem LoadedFrom.cons {s t u : State} {g : Segment} {gs : List Segment} (hg : LoadedFrom s [g] t)
    (hgs : LoadedFrom t gs u) : LoadedFrom s (g :: gs) u where
  wf := hgs.wf
  size := hgs.size.trans hg.size
  pc := hgs.pc.trans hg.pc
  x := hgs.x.trans hg.x
  exit := hgs.exit.trans hg.exit
  cursor := by rw [hgs.cursor, hg.cursor]; rfl
  byte a := by rw [hgs.byte, hg.byte]; rfl

theorem maxAddr_toNat (a b : Word) : (maxAddr a b).toNat = max a.toNat b.toNat := by
  unfold maxAddr
  split <;> omega

theorem loadSegment_skipped {g : Segment} (s : State) (h : g.loadAddr = 0) : loadSegment s g = .ok s := if_pos h

theorem loadSegment_inside {s : State} {g : Segment} (h0 : g.loadAddr ≠ 0)
    (h : g.loadAddr.toNat + g.payload.length ≤ s.mem.size) :
    loadSegment s g = .ok { s with
      mem := s.mem.setBytes g.loadAddr.toNat g.payload
      curAlloc := maxAddr s.curAlloc (g.loadAddr + BitVec.ofNat 64 g.payload.length) } := by
  simp only [loadSegment, h0, if_false, write_inside h]

theorem loadSegment_outside {s : State} {g : Segment} (h0 : g.loadAddr ≠ 0)
    (h : s.mem.size < g.loadAddr.toNat + g.payload.length) :
    loadSegment s g = .error (.boundsViolation g.loadAddr g.payload.length) := by
  simp only [loadSegment, h0, if_false, write_outside h]

/-- The end address of a segment inside memory is not reduced, for MEM_SIZE < 2^63 (D1). -/
theorem segment_end_toNat {s : State} {g : Segment} (hs : s.wf)
    (h : g.loadAddr.toNat + g.payload.length ≤ s.mem.size) :
    (g.loadAddr + BitVec.ofNat 64 g.payload.length).toNat = g.loadAddr.toNat + g.payload.length := by
  obtain ⟨-, -, hsize⟩ := hs
  rw [BitVec.toNat_add, BitVec.toNat_ofNat]
  omega

theorem loadSegment_of_fits {s : State} {g : Segment} (hs : s.wf) (hf : fits s.mem.size g) :
    ∃ t, loadSegment s g = .ok t ∧ LoadedFrom s [g] t := by
  by_cases h0 : g.loadAddr = 0
  · exact ⟨s, loadSegment_skipped s h0, hs, rfl, rfl, rfl, rfl, (segmentEnd_skipped h0 _).symm,
      fun a => (segmentByte_skipped h0 a _).symm⟩
  · have hin := hf.resolve_left h0
    have hend := segment_end_toNat hs hin
    obtain ⟨hmem, hsize⟩ := hs
    refine ⟨_, loadSegment_inside h0 hin, ⟨setBytes_wf hmem hin, by simpa using hsize⟩, setBytes_size _ _ _, rfl, rfl,
      rfl, ?_, fun a => ?_⟩
    · simp only [List.foldl_cons, List.foldl_nil, segmentEnd_loaded h0, maxAddr_toNat, hend]
    · simp only [List.foldl_cons, List.foldl_nil, segmentByte_loaded h0, byte_setBytes hmem hin]

theorem fits_of_loadSegment_ok {s t : State} {g : Segment} (h : loadSegment s g = .ok t) : fits s.mem.size g := by
  by_contra hf
  obtain ⟨h0, hout⟩ := not_or.1 hf
  rw [loadSegment_outside h0 (Nat.lt_of_not_le hout)] at h
  cases h

theorem loadImage_cons_of_ok {s t : State} {g : Segment} (gs : List Segment) (h : loadSegment s g = .ok t) :
    loadImage s (g :: gs) = loadImage t gs := by
  simp only [loadImage, h]

/-- An image whose segments all fit is loaded. -/
theorem loadImage_of_fits {s : State} {gs : List Segment} (hs : s.wf) (hf : ∀ g ∈ gs, fits s.mem.size g) :
    ∃ t, loadImage s gs = .ok t ∧ LoadedFrom s gs t := by
  induction gs generalizing s with
  | nil => exact ⟨s, rfl, .nil hs⟩
  | cons g gs ih =>
    obtain ⟨hg, hgs⟩ := List.forall_mem_cons.1 hf
    obtain ⟨t, ht, hst⟩ := loadSegment_of_fits hs hg
    obtain ⟨u, hu, htu⟩ := ih hst.wf (hst.size ▸ hgs)
    exact ⟨u, (loadImage_cons_of_ok gs ht).trans hu, hst.cons htu⟩

/-- An image that is loaded has segments that all fit. -/
theorem fits_of_loadImage_ok {s u : State} {gs : List Segment} (hs : s.wf) (h : loadImage s gs = .ok u) :
    ∀ g ∈ gs, fits s.mem.size g := by
  induction gs generalizing s with
  | nil => exact fun _ hg => absurd hg List.not_mem_nil
  | cons g gs ih =>
    cases hseg : loadSegment s g with
    | error f => simp [loadImage, hseg] at h
    | ok t =>
      have hg := fits_of_loadSegment_ok hseg
      obtain ⟨t', ht', hst⟩ := loadSegment_of_fits hs hg
      obtain rfl : t = t' := Except.ok.inj (hseg.symm.trans ht')
      rw [loadImage_cons_of_ok gs hseg] at h
      exact List.forall_mem_cons.2 ⟨hg, hst.size ▸ ih hst.wf h⟩

theorem construct_wf {p : Params} (hp : p.sizeOk) : (construct p).wf :=
  ⟨⟨.nil, fun _ hc => absurd hc List.not_mem_nil⟩, hp⟩

/-- Settles O55, by induction over the segments of IMAGE from the state as it is constructed. -/
theorem bootGivesTheResetState : Obligations.BootGivesTheResetState := by
  intro p hp
  have hfits : ∀ s, boot p = .ok s → ∀ g ∈ p.image, fits p.memSize g :=
    fun s h => fits_of_loadImage_ok (construct_wf hp) h
  refine ⟨⟨fun ⟨s, h⟩ => hfits s h, fun hf => ?_⟩, fun s h => ?_⟩
  · obtain ⟨t, ht, -⟩ := loadImage_of_fits (construct_wf hp) hf
    exact ⟨t, ht⟩
  · obtain ⟨t, ht, hl⟩ := loadImage_of_fits (construct_wf hp) (hfits s h)
    obtain rfl : s = t := Except.ok.inj (h.symm.trans ht)
    refine ⟨hl.wf, hl.size, hl.pc, hl.x, hl.exit, ?_, fun a => ?_⟩
    · rw [imageEnd_eq_foldl]
      exact hl.cursor
    · rw [imageByte_eq_foldl]
      exact hl.byte a

end Sys2Proof.Proofs
end

section
/-! SUPPORT. Memory as the statements say it (`20_memory.md`): the value a read gives as the little-endian sum of R42, what
a store leaves of every byte, what a later read or fetch sees of it, and the effective address. -/

namespace Sys2Proof.Proofs

open Sys2Proof Sys2Proof.Machine Sys2Proof.Claims Sys2Proof.Laws

/-! ## Reads (R42) -/

/-- The bytes from `a` spell the sum of R42. -/
theorem leValue_bytes (m : Memory) (a n : Nat) : leValue (m.bytes a n) = leSum m a n := by
  induction n generalizing a with
  | zero => rfl
  | succ n ih =>
    have hterm : ∀ i, (m.byte (a + (i + 1))).toNat * 2 ^ (8 * (i + 1))
        = 256 * ((m.byte (a + 1 + i)).toNat * 2 ^ (8 * i)) := by
      intro i
      rw [← Nat.add_assoc, Nat.add_right_comm a i 1]
      ring
    simp [Memory.bytes, leValue, ih, leSum, Finset.sum_range_succ', hterm, Finset.mul_sum, Nat.add_comm]

theorem memRead_eq_leSum {m : Memory} {addr : Word} {n : Nat} (h : addr.toNat + n ≤ m.size) :
    memRead m addr n = .ok (leSum m addr.toNat n) := by
  rw [memRead_inside h, leValue_bytes]

/-- Settles O13: the bytes of a read inside memory spell the sum, whatever their number. -/
theorem memReadIsTheLittleEndianSum : Obligations.MemReadIsTheLittleEndianSum :=
  fun _ _ _ _ => ⟨memRead_eq_leSum, memRead_outside⟩

theorem leSum_lt (m : Memory) (a n : Nat) : leSum m a n < 256 ^ n := by
  simpa [leValue_bytes] using leValue_lt (m.bytes a n)

/-- Byte k of the sum is the byte at `a + k`. -/
theorem leSum_byte (m : Memory) (a : Nat) {n k : Nat} (hk : k < n) :
    leSum m a n / 2 ^ (8 * k) % 256 = (m.byte (a + k)).toNat := by
  rw [← leValue_bytes, leValue_byte (by simpa using hk), bytes_getD m hk]

/-- A fetch inside memory gives the word whose value is the sum of its four bytes (R111). -/
theorem fetch_toNat {s : State} (h : s.pc.toNat + 4 ≤ s.mem.size) :
    ∃ w, fetchWord s = .ok w ∧ w.toNat = leSum s.mem s.pc.toNat 4 := by
  refine ⟨_, fetch_inside h, ?_⟩
  rw [leValue_bytes, BitVec.toNat_ofNat]
  exact Nat.mod_eq_of_lt (leSum_lt s.mem s.pc.toNat 4)

/-! ## Writes (R43) -/

/-- Writing the low `n` bytes of `v` inside memory stores them and nothing else. -/
theorem setBytes_storedAt {m : Memory} (hm : m.wf) {a n : Nat} (v : Word) (h : a + n ≤ m.size) :
    StoredAt m (m.setBytes a (leBytes n v)) a n v := by
  refine ⟨setBytes_size m a _, fun b => ?_⟩
  rw [byte_setBytes hm (by simpa using h), leBytes_length]
  split
  · exact leBytes_getD_toNat (by omega) v
  · rfl

theorem memWrite_storedAt {m : Memory} (hm : m.wf) {addr : Word} {n : Nat} (v : Word) (h : addr.toNat + n ≤ m.size) :
    ∃ m', memWrite m addr n v = .ok m' ∧ StoredAt m m' addr.toNat n v :=
  ⟨_, memWrite_inside v h, setBytes_storedAt hm v h⟩

/-- Settles O14: a write inside memory sets the bytes of the value, one outside is refused whole. -/
theorem memWriteStoresEachByte : Obligations.MemWriteStoresEachByte :=
  fun _ _ _ v hm _ => ⟨memWrite_storedAt hm v, memWrite_outside v⟩

/-! ## Reads after a write (R41) -/

/-- The low `n` bytes of a number sum to it modulo 256 to the power `n`. -/
theorem sum_bytes_eq_mod (x n : Nat) :
    ∑ i ∈ Finset.range n, x / 2 ^ (8 * i) % 256 * 2 ^ (8 * i) = x % 2 ^ (8 * n) := by
  induction n with
  | zero => simp [Nat.mod_one]
  | succ n ih =>
    rw [Finset.sum_range_succ, ih, Nat.mul_succ, Nat.pow_add, Nat.mod_mul, Nat.mul_comm (2 ^ (8 * n))]

section
variable {m m' : Memory} {a n : Nat} {v : Word}

/-- A stored byte, from where it was stored. -/
theorem storedAt_byte (h : StoredAt m m' a n v) {k : Nat} (hk : k < n) :
    (m'.byte (a + k)).toNat = v.toNat / 2 ^ (8 * k) % 256 := by
  obtain ⟨-, hbyte⟩ := h
  rw [hbyte, if_pos (by omega), Nat.add_sub_cancel_left]

/-- The `l` bytes from the `k`-th stored byte up sum to v[8(k+l)-1 : 8k]. -/
theorem storedAt_leSum (h : StoredAt m m' a n v) {k l : Nat} (hkl : k + l ≤ n) :
    leSum m' (a + k) l = v.toNat / 2 ^ (8 * k) % 2 ^ (8 * l) := by
  rw [← sum_bytes_eq_mod]
  refine Finset.sum_congr rfl fun i hi => ?_
  have hki : k + i < n := by
    have := Finset.mem_range.1 hi
    omega
  rw [Nat.add_assoc, storedAt_byte h hki, Nat.mul_add, Nat.pow_add, Nat.div_div_eq_div_mul]

/-- A read of `l` of the stored bytes, `k` above the lowest, gives v[8(k+l)-1 : 8k]. -/
theorem storedAt_memRead (h : StoredAt m m' a n v) (hin : a + n ≤ m.size) {b : Word} {k l : Nat}
    (hb : b.toNat = a + k) (hkl : k + l ≤ n) : memRead m' b l = .ok (v.toNat / 2 ^ (8 * k) % 2 ^ (8 * l)) := by
  have hsum := storedAt_leSum h hkl
  obtain ⟨hsize, -⟩ := h
  rw [memRead_eq_leSum (by omega), hb, hsum]

end

theorem fetch_of_memRead {s : State} {v : Nat} (h : memRead s.mem s.pc 4 = .ok v) :
    fetchWord s = .ok (BitVec.ofNat 32 v) := by
  simp only [fetchWord, h]

/-- Settles O15: each narrower access, and the fetch, reads some of the stored bytes, and their addresses do not wrap. -/
theorem mixedWidthAccessesSeeTheBytes : Obligations.MixedWidthAccessesSeeTheBytes := by
  rintro s a ⟨hm, -, hsize⟩ hin
  obtain ⟨m, hw, hst⟩ := memWrite_storedAt hm 0x11223344 hin
  have h1 : (a + 1).toNat = a.toNat + 1 := by bv_omega
  have h2 : (a + 2).toNat = a.toNat + 2 := by bv_omega
  exact ⟨m, hw, storedAt_memRead hst hin (k := 0) rfl (by decide), storedAt_memRead hst hin h1 (by decide),
    storedAt_memRead hst hin (k := 0) rfl (by decide), storedAt_memRead hst hin h2 (by decide),
    fetch_of_memRead (storedAt_memRead hst hin (k := 0) rfl (by decide))⟩

/-! ## Stores and later fetches (R55) -/

/-- An instruction that names an access and data to store runs the shared store there. -/
theorem exec_eq_store {i : Instr} {s : State} {addr : Word} {n : Nat} {rs2 : Reg}
    (ha : storeAccess i s = some (addr, n)) (hd : storeData i = some rs2) :
    ∃ rs1 imm, addr = effectiveAddress s rs1 imm ∧ exec i s = store n rs1 rs2 imm s := by
  cases i
  case sb rs1 _ imm | sh rs1 _ imm | sw rs1 _ imm | sd rs1 _ imm =>
    cases ha
    cases hd
    exact ⟨rs1, imm, rfl, rfl⟩
  all_goals cases ha

/-- What a store that completes leaves of memory. -/
theorem exec_storedAt {i : Instr} {s t : State} {addr : Word} {n : Nat} {rs2 : Reg} (hm : s.mem.wf)
    (ha : storeAccess i s = some (addr, n)) (hd : storeData i = some rs2) (h : exec i s = .next t) :
    StoredAt s.mem t.mem addr.toNat n (s.readReg rs2) := by
  obtain ⟨rs1, imm, rfl, hstore⟩ := exec_eq_store ha hd
  obtain ⟨hin, rfl⟩ := store_next (hstore.symm.trans h)
  exact setBytes_storedAt hm _ hin

/-- Settles O52: the step runs the store that the word fetched before it names, and byte k of a later fetch is the byte
that store left there. -/
theorem storesAreSeenByLaterFetches : Obligations.StoresAreSeenByLaterFetches := by
  rintro s t w i addr n rs2 pc' ⟨hm, -⟩ hf hdec ha hd hstep hpc
  obtain ⟨hsize, hbyte⟩ := exec_storedAt hm ha hd ((step_of_decode hf hdec).symm.trans hstep)
  obtain ⟨w', hf', hw'⟩ := fetch_toNat (s := { t with pc := pc' }) (hsize ▸ hpc)
  refine ⟨w', hf', fun k hk => ?_⟩
  rw [hw', leSum_byte _ _ hk, hbyte]

/-! ## The effective address (R44) -/

/-- Settles O16: the address is the modular sum of the base and the extended immediate. -/
theorem effectiveAddressIsModular : Obligations.EffectiveAddressIsModular :=
  fun s rs1 imm => toNat_add_signExtend (by decide) (s.readReg rs1) imm

end Sys2Proof.Proofs
end

section
/-! SUPPORT. Encoding (`30_encoding.md`): what decoding answers and where it answers nothing, through the cases of `Decodes`
and the rows of the opcode table, and the operands of a decoded instruction as slices of its word. -/

namespace Sys2Proof.Proofs

open Sys2Proof Sys2Proof.Machine Sys2Proof.Claims Sys2Proof.Laws

/-! ## Encoding what was decoded (R90) -/

section
variable {w : InstrWord} {i : Instr}

theorem decodes_wellFormed (h : Decodes w i) : i.wellFormed = true := by
  cases h
  case jal => exact immJ_even w
  case beq | bne | blt | bge | bltu | bgeu => exact immB_even w
  all_goals rfl

section
variable {op : BitVec 7} {f3 : BitVec 3} (hop : opcodeOf w = op) (h3 : funct3Of w = f3)
include hop

theorem encodeU_of_fields : encodeU (immU w) (rdOf w) op = w :=
  hop ▸ encodeU_fields w

theorem encodeJ_of_fields : encodeJ (immJ w) (rdOf w) op = w :=
  hop ▸ encodeJ_fields w

include h3

theorem encodeI_of_fields : encodeI (immI w) (rs1Of w) f3 (rdOf w) op = w :=
  hop ▸ h3 ▸ encodeI_fields w

theorem encodeS_of_fields : encodeS (immS w) (rs2Of w) (rs1Of w) f3 op = w :=
  hop ▸ h3 ▸ encodeS_fields w

theorem encodeB_of_fields : encodeB (immB w) (rs2Of w) (rs1Of w) f3 op = w :=
  hop ▸ h3 ▸ encodeB_fields w

theorem encodeR_of_fields {f7 : BitVec 7} (h7 : funct7Of w = f7) :
    encodeR f7 (rs2Of w) (rs1Of w) f3 (rdOf w) op = w :=
  hop ▸ h3 ▸ h7 ▸ encodeR_fields w

theorem encodeShift6_of_fields {m : BitVec 6} (hm : mode6Of w = m) :
    encodeShift6 m (shamt6Of w) (rs1Of w) f3 (rdOf w) op = w :=
  hop ▸ h3 ▸ hm ▸ encodeShift6_fields w

theorem encodeShift5_of_fields {f7 : BitVec 7} (h7 : funct7Of w = f7) :
    encodeShift5 f7 (shamt5Of w) (rs1Of w) f3 (rdOf w) op = w :=
  hop ▸ h3 ▸ h7 ▸ encodeShift5_fields w

end

/-- The fields an instruction is selected by and its operands are the whole word, but for ECALL and EBREAK. -/
theorem encode_of_decodes (h : Decodes w i) (hc : i ≠ .ecall) (hb : i ≠ .ebreak) : encode i = w := by
  cases h
  case lui hop | auipc hop => exact encodeU_of_fields hop
  case jal hop => exact encodeJ_of_fields hop
  case ecall => exact absurd rfl hc
  case ebreak => exact absurd rfl hb
  case beq hop h3 | bne hop h3 | blt hop h3 | bge hop h3 | bltu hop h3 | bgeu hop h3 => exact encodeB_of_fields hop h3
  case sb hop h3 | sh hop h3 | sw hop h3 | sd hop h3 => exact encodeS_of_fields hop h3
  case slli hop h3 hm | srli hop h3 hm | srai hop h3 hm => exact encodeShift6_of_fields hop h3 hm
  case slliw hop h3 hm | srliw hop h3 hm | sraiw hop h3 hm => exact encodeShift5_of_fields hop h3 hm
  case jalr hop h3 | lb hop h3 | lh hop h3 | lw hop h3 | ld hop h3 | lbu hop h3 | lhu hop h3 | lwu hop h3 | addi hop h3
      | slti hop h3 | sltiu hop h3 | xori hop h3 | ori hop h3 | andi hop h3 | addiw hop h3 =>
    exact encodeI_of_fields hop h3
  all_goals exact encodeR_of_fields ‹_› ‹_› ‹_›

/-- The fields that select ECALL (R90, D17). -/
theorem decodes_ecall_iff :
    Decodes w .ecall ↔ opcodeOf w = 0b1110011#7 ∧ funct3Of w = 0b000#3 ∧ upper12Of w = 0#12 :=
  ⟨fun | .ecall hop h3 hu => ⟨hop, h3, hu⟩, fun ⟨hop, h3, hu⟩ => .ecall hop h3 hu⟩

/-- The fields that select EBREAK (R90, D17). -/
theorem decodes_ebreak_iff :
    Decodes w .ebreak ↔ opcodeOf w = 0b1110011#7 ∧ funct3Of w = 0b000#3 ∧ upper12Of w = 1#12 :=
  ⟨fun | .ebreak hop h3 hu => ⟨hop, h3, hu⟩, fun ⟨hop, h3, hu⟩ => .ebreak hop h3 hu⟩

end

/-- Settles O2: the fields of a decoded word put together again are the word, and the system mask leaves out rd and rs1. -/
theorem encodeOfDecodeIsTheWord : Obligations.EncodeOfDecodeIsTheWord := by
  refine ⟨fun w i h => ?_, fun w => ?_, fun w => ?_⟩
  · have hd := (decode_iff w i).1 h
    exact ⟨decodes_wellFormed hd, encode_of_decodes hd⟩
  · exact (decode_iff w _).trans (decodes_ecall_iff.trans (upper12_mask rfl).symm)
  · exact (decode_iff w _).trans (decodes_ebreak_iff.trans (upper12_mask rfl).symm)

/-! ## The rows of the opcode table (R83, R84) -/

theorem row_mem_opcodeTable (i : Instr) : i.row ∈ opcodeTable := by
  cases i <;> (dsimp only [Instr.row]; decide)

section
variable {w : InstrWord}

/-- The fields that select an instruction are the ones the mask of its row keeps. -/
theorem row_match_of_decodes {i : Instr} (h : Decodes w i) : w &&& i.row.mask = i.row.bits := by
  cases h
  case lui hop | auipc hop | jal hop => exact (opcode_mask rfl).2 hop
  case slli hop h3 hm | srli hop h3 hm | srai hop h3 hm => exact (mode6_mask rfl).2 ⟨hop, h3, hm⟩
  case ecall hop h3 hu | ebreak hop h3 hu => exact (upper12_mask rfl).2 ⟨hop, h3, hu⟩
  case add | sub | sll | slt | sltu | xor | srl | sra | or | and | slliw | srliw | sraiw | addw | subw | sllw | srlw
      | sraw =>
    exact (funct7_mask rfl).2 ⟨‹_›, ‹_›, ‹_›⟩
  all_goals exact (funct3_mask rfl).2 ⟨‹_›, ‹_›⟩

/-- `And.elim` for the rows that three fields select. -/
theorem and3_elim {a b c d : Prop} (f : a → b → c → d) : a ∧ b ∧ c → d
  | ⟨ha, hb, hc⟩ => f ha hb hc

/-- A word that a row matches decodes to an instruction of that row: what the mask says of the fields selects the case. -/
theorem decodes_of_row_match :
    ∀ j : Instr, w &&& j.row.mask = j.row.bits → ∃ i, Decodes w i ∧ i.row = j.row
  | .lui .., h => ⟨_, .lui ((opcode_mask rfl).1 h), rfl⟩
  | .auipc .., h => ⟨_, .auipc ((opcode_mask rfl).1 h), rfl⟩
  | .jal .., h => ⟨_, .jal ((opcode_mask rfl).1 h), rfl⟩
  | .jalr .., h => ⟨_, And.elim .jalr ((funct3_mask rfl).1 h), rfl⟩
  | .beq .., h => ⟨_, And.elim .beq ((funct3_mask rfl).1 h), rfl⟩
  | .bne .., h => ⟨_, And.elim .bne ((funct3_mask rfl).1 h), rfl⟩
  | .blt .., h => ⟨_, And.elim .blt ((funct3_mask rfl).1 h), rfl⟩
  | .bge .., h => ⟨_, And.elim .bge ((funct3_mask rfl).1 h), rfl⟩
  | .bltu .., h => ⟨_, And.elim .bltu ((funct3_mask rfl).1 h), rfl⟩
  | .bgeu .., h => ⟨_, And.elim .bgeu ((funct3_mask rfl).1 h), rfl⟩
  | .lb .., h => ⟨_, And.elim .lb ((funct3_mask rfl).1 h), rfl⟩
  | .lh .., h => ⟨_, And.elim .lh ((funct3_mask rfl).1 h), rfl⟩
  | .lw .., h => ⟨_, And.elim .lw ((funct3_mask rfl).1 h), rfl⟩
  | .lbu .., h => ⟨_, And.elim .lbu ((funct3_mask rfl).1 h), rfl⟩
  | .lhu .., h => ⟨_, And.elim .lhu ((funct3_mask rfl).1 h), rfl⟩
  | .lwu .., h => ⟨_, And.elim .lwu ((funct3_mask rfl).1 h), rfl⟩
  | .ld .., h => ⟨_, And.elim .ld ((funct3_mask rfl).1 h), rfl⟩
  | .sb .., h => ⟨_, And.elim .sb ((funct3_mask rfl).1 h), rfl⟩
  | .sh .., h => ⟨_, And.elim .sh ((funct3_mask rfl).1 h), rfl⟩
  | .sw .., h => ⟨_, And.elim .sw ((funct3_mask rfl).1 h), rfl⟩
  | .sd .., h => ⟨_, And.elim .sd ((funct3_mask rfl).1 h), rfl⟩
  | .addi .., h => ⟨_, And.elim .addi ((funct3_mask rfl).1 h), rfl⟩
  | .slti .., h => ⟨_, And.elim .slti ((funct3_mask rfl).1 h), rfl⟩
  | .sltiu .., h => ⟨_, And.elim .sltiu ((funct3_mask rfl).1 h), rfl⟩
  | .xori .., h => ⟨_, And.elim .xori ((funct3_mask rfl).1 h), rfl⟩
  | .ori .., h => ⟨_, And.elim .ori ((funct3_mask rfl).1 h), rfl⟩
  | .andi .., h => ⟨_, And.elim .andi ((funct3_mask rfl).1 h), rfl⟩
  | .slli .., h => ⟨_, and3_elim .slli ((mode6_mask rfl).1 h), rfl⟩
  | .srli .., h => ⟨_, and3_elim .srli ((mode6_mask rfl).1 h), rfl⟩
  | .srai .., h => ⟨_, and3_elim .srai ((mode6_mask rfl).1 h), rfl⟩
  | .add .., h => ⟨_, and3_elim .add ((funct7_mask rfl).1 h), rfl⟩
  | .sub .., h => ⟨_, and3_elim .sub ((funct7_mask rfl).1 h), rfl⟩
  | .sll .., h => ⟨_, and3_elim .sll ((funct7_mask rfl).1 h), rfl⟩
  | .slt .., h => ⟨_, and3_elim .slt ((funct7_mask rfl).1 h), rfl⟩
  | .sltu .., h => ⟨_, and3_elim .sltu ((funct7_mask rfl).1 h), rfl⟩
  | .xor .., h => ⟨_, and3_elim .xor ((funct7_mask rfl).1 h), rfl⟩
  | .srl .., h => ⟨_, and3_elim .srl ((funct7_mask rfl).1 h), rfl⟩
  | .sra .., h => ⟨_, and3_elim .sra ((funct7_mask rfl).1 h), rfl⟩
  | .or .., h => ⟨_, and3_elim .or ((funct7_mask rfl).1 h), rfl⟩
  | .and .., h => ⟨_, and3_elim .and ((funct7_mask rfl).1 h), rfl⟩
  | .ecall, h => ⟨_, and3_elim .ecall ((upper12_mask rfl).1 h), rfl⟩
  | .ebreak, h => ⟨_, and3_elim .ebreak ((upper12_mask rfl).1 h), rfl⟩
  | .addiw .., h => ⟨_, And.elim .addiw ((funct3_mask rfl).1 h), rfl⟩
  | .slliw .., h => ⟨_, and3_elim .slliw ((funct7_mask rfl).1 h), rfl⟩
  | .srliw .., h => ⟨_, and3_elim .srliw ((funct7_mask rfl).1 h), rfl⟩
  | .sraiw .., h => ⟨_, and3_elim .sraiw ((funct7_mask rfl).1 h), rfl⟩
  | .addw .., h => ⟨_, and3_elim .addw ((funct7_mask rfl).1 h), rfl⟩
  | .subw .., h => ⟨_, and3_elim .subw ((funct7_mask rfl).1 h), rfl⟩
  | .sllw .., h => ⟨_, and3_elim .sllw ((funct7_mask rfl).1 h), rfl⟩
  | .srlw .., h => ⟨_, and3_elim .srlw ((funct7_mask rfl).1 h), rfl⟩
  | .sraw .., h => ⟨_, and3_elim .sraw ((funct7_mask rfl).1 h), rfl⟩

theorem decodes_of_mem_opcodeTable {r : OpcodeRow} (hr : r ∈ opcodeTable) (hm : w &&& r.mask = r.bits) :
    ∃ i, Decodes w i ∧ i.row = r := by
  obtain ⟨j, -, rfl⟩ := List.mem_map.1 hr
  exact decodes_of_row_match j hm

/-- Decoding answers no instruction exactly where it answers the exit that carries the word. -/
theorem decode_invalid_iff : decodeWord w = .error (.invalidOpcode w) ↔ ∀ i, ¬ Decodes w i := by
  constructor
  · intro h i hd
    cases h.symm.trans ((decode_iff w i).2 hd)
  · intro h
    cases hw : decodeWord w with
    | ok i => exact absurd ((decode_iff w i).1 hw) (h i)
    | error e => rw [decode_error hw]

/-- The dispatch rejects exactly the words that no row matches. -/
theorem decode_invalid_iff_no_row :
    decodeWord w = .error (.invalidOpcode w) ↔ ∀ r ∈ opcodeTable, w &&& r.mask ≠ r.bits := by
  rw [decode_invalid_iff]
  constructor
  · intro h r hr hm
    obtain ⟨i, hd, -⟩ := decodes_of_mem_opcodeTable hr hm
    exact h i hd
  · exact fun h i hd => h _ (row_mem_opcodeTable i) (row_match_of_decodes hd)

end

/-- Settles O3: the fields that select an instruction are the ones its row's mask keeps, in both directions. -/
theorem dispatchFollowsTheOpcodeTable : Obligations.DispatchFollowsTheOpcodeTable := by
  refine ⟨rfl, by decide, fun w => ⟨fun i h => ?_, fun r hr hm => ?_, decode_invalid_iff_no_row.2⟩⟩
  · exact ⟨row_mem_opcodeTable i, row_match_of_decodes ((decode_iff w i).1 h)⟩
  · obtain ⟨i, hd, hrow⟩ := decodes_of_mem_opcodeTable hr hm
    exact ⟨i, (decode_iff w i).2 hd, hrow⟩

/-! ## Slices of a word (R71) -/

section
variable (w : InstrWord)

theorem slice_opcode : slice w 6 0 = (opcodeOf w).toNat := (toNat_slice w 0 7).symm

theorem slice_funct3 : slice w 14 12 = (funct3Of w).toNat := (toNat_slice w 12 3).symm

theorem slice_funct7 : slice w 31 25 = (funct7Of w).toNat := (toNat_slice w 25 7).symm

theorem slice_mode6 : slice w 31 26 = (mode6Of w).toNat := (toNat_slice w 26 6).symm

theorem slice_upper12 : slice w 31 20 = (upper12Of w).toNat := (toNat_slice w 20 12).symm

end

theorem decodes_opcode_mem {w : InstrWord} {i : Instr} (h : Decodes w i) :
    slice w 6 0 ∈ ([0x37, 0x17, 0x6F, 0x67, 0x63, 0x03, 0x23, 0x13, 0x33, 0x73, 0x1B, 0x3B] : List Nat) := by
  rw [slice_opcode]
  cases h <;> simp [*]

/-- Settles O4: whatever decodes has one of the twelve opcodes. -/
theorem unlistedOpcodesAreInvalid : Obligations.UnlistedOpcodesAreInvalid :=
  fun _ hop => decode_invalid_iff.2 fun _ hd => hop (decodes_opcode_mem hd)

/-! ## Masks as slices: a row whose match lies under its mask compares the slices the mask keeps -/

section
variable {w b : InstrWord}

theorem opcode_mask_slice (hb : b &&& 0x0000007F#32 = b) :
    w &&& 0x0000007F#32 = b ↔ slice w 6 0 = b.toNat % 128 := by
  rw [slice_opcode, ← opcodeOf_toNat, BitVec.toNat_inj]
  exact opcode_mask (hb.symm.trans ((opcode_mask rfl).2 rfl))

theorem funct3_mask_slice (hb : b &&& 0x0000707F#32 = b) :
    w &&& 0x0000707F#32 = b ↔ slice w 6 0 = b.toNat % 128 ∧ slice w 14 12 = b.toNat / 2 ^ 12 % 8 := by
  rw [slice_opcode, slice_funct3, ← opcodeOf_toNat, ← funct3Of_toNat, BitVec.toNat_inj, BitVec.toNat_inj]
  exact funct3_mask (hb.symm.trans ((funct3_mask rfl).2 ⟨rfl, rfl⟩))

theorem funct7_mask_slice (hb : b &&& 0xFE00707F#32 = b) :
    w &&& 0xFE00707F#32 = b ↔ slice w 6 0 = b.toNat % 128 ∧ slice w 14 12 = b.toNat / 2 ^ 12 % 8
      ∧ slice w 31 25 = b.toNat / 2 ^ 25 % 128 := by
  rw [slice_opcode, slice_funct3, slice_funct7, ← opcodeOf_toNat, ← funct3Of_toNat, ← funct7Of_toNat,
    BitVec.toNat_inj, BitVec.toNat_inj, BitVec.toNat_inj]
  exact funct7_mask (hb.symm.trans ((funct7_mask rfl).2 ⟨rfl, rfl, rfl⟩))

theorem mode6_mask_slice (hb : b &&& 0xFC00707F#32 = b) :
    w &&& 0xFC00707F#32 = b ↔ slice w 6 0 = b.toNat % 128 ∧ slice w 14 12 = b.toNat / 2 ^ 12 % 8
      ∧ slice w 31 26 = b.toNat / 2 ^ 26 % 64 := by
  rw [slice_opcode, slice_funct3, slice_mode6, ← opcodeOf_toNat, ← funct3Of_toNat, ← mode6Of_toNat,
    BitVec.toNat_inj, BitVec.toNat_inj, BitVec.toNat_inj]
  exact mode6_mask (hb.symm.trans ((mode6_mask rfl).2 ⟨rfl, rfl, rfl⟩))

theorem upper12_mask_slice (hb : b &&& 0xFFF0707F#32 = b) :
    w &&& 0xFFF0707F#32 = b ↔ slice w 6 0 = b.toNat % 128 ∧ slice w 14 12 = b.toNat / 2 ^ 12 % 8
      ∧ slice w 31 20 = b.toNat / 2 ^ 20 % 4096 := by
  rw [slice_opcode, slice_funct3, slice_upper12, ← opcodeOf_toNat, ← funct3Of_toNat, ← upper12Of_toNat,
    BitVec.toNat_inj, BitVec.toNat_inj, BitVec.toNat_inj]
  exact upper12_mask (hb.symm.trans ((upper12_mask rfl).2 ⟨rfl, rfl, rfl⟩))

end

/-- Settles O5: under one opcode, the rows that are left say which slices a valid word has (R86, R87). -/
theorem unlistedCombinationsAreInvalid : Obligations.UnlistedCombinationsAreInvalid := by
  intro w
  -- One conjunct for each row, in slices; under one opcode only its own rows stay.
  have hrows := decode_invalid_iff_no_row (w := w)
  simp only [opcodeTable, Instr.samples, Instr.row, List.map_append, List.map_cons, List.map_nil,
    List.forall_mem_append, List.forall_mem_cons, ne_eq, opcode_mask_slice, funct3_mask_slice, funct7_mask_slice,
    mode6_mask_slice, upper12_mask_slice, BitVec.reduceAnd, BitVec.reduceToNat, Nat.reducePow, Nat.reduceDiv,
    Nat.reduceMod, List.not_mem_nil, IsEmpty.forall_iff, implies_true, and_true] at hrows
  have hf3 : slice w 14 12 < 8 := Nat.mod_lt _ (by decide)
  simp only [List.mem_cons, List.not_mem_nil, or_false]
  refine ⟨fun hop => ?_, fun hop => ?_, fun hop => ?_, fun hop => ?_, fun hop => ?_, fun hop => ?_, fun hop => ?_,
    fun hop => ?_, fun hop => ?_, ?upper⟩
  case upper => rintro (hop | hop | hop) <;> simp [hrows, hop]
  all_goals
    simp only [hop, Nat.reduceEqDiff, false_and, not_false_eq_true, true_and, and_true] at hrows
    refine hrows.trans ?_
    omega

/-! ## The operands of a decoded instruction (R71 to R79) -/

/-- Every operand that `i` names is the field of `w` its format gives it. -/
structure OperandsFrom (w : InstrWord) (i : Instr) : Prop where
  rd : ∀ r, destination i = some r → r = rdOf w
  rs1 : ∀ r, source1 i = some r → r = rs1Of w
  rs2 : ∀ r, source2 i = some r → r = rs2Of w
  iImm : ∀ imm, immIOf i = some imm → imm = immI w
  sImm : ∀ imm, immSOf i = some imm → imm = immS w
  bImm : ∀ imm, immBOf i = some imm → imm = immB w
  uImm : ∀ imm, immUOf i = some imm → imm = immU w
  jImm : ∀ imm, immJOf i = some imm → imm = immJ w
  shamt6 : ∀ sh, shamt6Carried i = some sh → sh = shamt6Of w
  shamt5 : ∀ sh, shamt5Carried i = some sh → sh = shamt5Of w

theorem decodes_operandsFrom {w : InstrWord} {i : Instr} (h : Decodes w i) : OperandsFrom w i := by
  cases h <;> constructor <;> rintro _ ⟨⟩ <;> rfl

/-- The two's complement reading of a field (R73 to R77). -/
theorem toInt_eq_signed {n : Nat} (hn : 0 < n) (x : BitVec n) : x.toInt = signed n x.toNat := by
  obtain ⟨m, rfl⟩ := Nat.exists_eq_succ_of_ne_zero hn.ne'
  have hhalf : 2 * x.toNat < 2 ^ (m + 1) ↔ x.toNat < 2 ^ m := by omega
  simp [BitVec.toInt_eq_toNat_cond, signed, hhalf]

theorem toInt_signExtend_eq_signed {n : Nat} (hn : 0 < n ∧ n ≤ 64) (x : BitVec n) :
    (x.signExtend 64).toInt = signed n x.toNat := by
  obtain ⟨hpos, hle⟩ := hn
  rw [BitVec.toInt_signExtend_of_le hle, toInt_eq_signed hpos]

/-- The U immediate is its field times 4096 (R76). -/
theorem toInt_imm20 (imm : BitVec 20) : (imm20 imm).toInt = signed 20 imm.toNat * 4096 := by
  have := imm.isLt
  rw [imm20, toInt_signExtend_eq_signed (by decide), toNat_append_eq]
  simp only [signed, BitVec.toNat_ofNat]
  split <;> split <;> omega

section
variable {w : InstrWord} {i : Instr} (h : OperandsFrom w i)
include h

theorem registerFields_of_operands : RegisterFields w i :=
  ⟨fun r hr => h.rd r hr ▸ rdOf_val w, fun r hr => h.rs1 r hr ▸ rs1Of_val w, fun r hr => h.rs2 r hr ▸ rs2Of_val w⟩

theorem immI_signed (imm : BitVec 12) (hi : immIOf i = some imm) :
    (imm12 imm).toInt = signed 12 (slice w 31 20) := by
  rw [h.iImm imm hi, imm12, toInt_signExtend_eq_signed (by decide), immI_toNat]
  rfl

theorem immS_signed (imm : BitVec 12) (hi : immSOf i = some imm) :
    (imm12 imm).toInt = signed 12 (slice w 31 25 * 32 + slice w 11 7) := by
  rw [h.sImm imm hi, imm12, toInt_signExtend_eq_signed (by decide), immS_toNat]
  rfl

theorem immB_signed (imm : BitVec 13) (hi : immBOf i = some imm) : (imm13 imm).toInt =
    signed 13 (slice w 31 31 * 2 ^ 12 + slice w 7 7 * 2 ^ 11 + slice w 30 25 * 2 ^ 5 + slice w 11 8 * 2) := by
  rw [h.bImm imm hi, imm13, toInt_signExtend_eq_signed (by decide), immB_toNat]
  rfl

theorem immU_signed (imm : BitVec 20) (hi : immUOf i = some imm) :
    (imm20 imm).toInt = signed 20 (slice w 31 12) * 4096 := by
  rw [h.uImm imm hi, toInt_imm20, immU_toNat]
  rfl

theorem immJ_signed (imm : BitVec 21) (hi : immJOf i = some imm) : (imm21 imm).toInt =
    signed 21 (slice w 31 31 * 2 ^ 20 + slice w 19 12 * 2 ^ 12 + slice w 20 20 * 2 ^ 11 + slice w 30 21 * 2) := by
  rw [h.jImm imm hi, imm21, toInt_signExtend_eq_signed (by decide), immJ_toNat]
  rfl

theorem shamt6_slice (sh : BitVec 6) (hsh : shamt6Carried i = some sh) : sh.toNat = slice w 25 20 :=
  h.shamt6 sh hsh ▸ shamt6Of_toNat w

theorem shamt5_slice (sh : BitVec 5) (hsh : shamt5Carried i = some sh) : sh.toNat = slice w 24 20 :=
  h.shamt5 sh hsh ▸ shamt5Of_toNat w

end

/-! ## Which words use a format: case by case, the opcode (and funct3) of each row against the operands it names -/

section
variable {w : InstrWord} {i : Instr} (h : Decodes w i)
include h

theorem formatR_iff : ((source2 i).isSome = true ∧ (destination i).isSome = true) ↔
    slice w 6 0 = 0x33 ∨ slice w 6 0 = 0x3B := by
  rw [slice_opcode]
  cases h <;> simp [source2, destination, *]

theorem formatI_iff : (immIOf i).isSome = true ↔ slice w 6 0 ∈ ([0x67, 0x03] : List Nat) ∨
    (slice w 6 0 = 0x13 ∧ slice w 14 12 ≠ 1 ∧ slice w 14 12 ≠ 5) ∨ (slice w 6 0 = 0x1B ∧ slice w 14 12 = 0) := by
  rw [slice_opcode, slice_funct3]
  cases h <;> simp [immIOf, *]

theorem formatS_iff : (immSOf i).isSome = true ↔ slice w 6 0 = 0x23 := by
  rw [slice_opcode]
  cases h <;> simp [immSOf, *]

theorem formatB_iff : (immBOf i).isSome = true ↔ slice w 6 0 = 0x63 := by
  rw [slice_opcode]
  cases h <;> simp [immBOf, *]

theorem formatU_iff : (immUOf i).isSome = true ↔ slice w 6 0 = 0x37 ∨ slice w 6 0 = 0x17 := by
  rw [slice_opcode]
  cases h <;> simp [immUOf, *]

theorem formatJ_iff : (immJOf i).isSome = true ↔ slice w 6 0 = 0x6F := by
  rw [slice_opcode]
  cases h <;> simp [immJOf, *]

theorem eq_ecall_iff : i = .ecall ↔ slice w 6 0 = 0x73 ∧ slice w 31 20 = 0 := by
  rw [slice_opcode, slice_upper12]
  cases h <;> simp [*]

theorem eq_ebreak_iff : i = .ebreak ↔ slice w 6 0 = 0x73 ∧ slice w 31 20 = 1 := by
  rw [slice_opcode, slice_upper12]
  cases h <;> simp [*]

theorem shamt6_iff : (shamt6Carried i).isSome = true ↔
    slice w 6 0 = 0x13 ∧ (slice w 14 12 = 1 ∨ slice w 14 12 = 5) := by
  rw [slice_opcode, slice_funct3]
  cases h <;> simp [shamt6Carried, *]

theorem shamt5_iff : (shamt5Carried i).isSome = true ↔
    slice w 6 0 = 0x1B ∧ (slice w 14 12 = 1 ∨ slice w 14 12 = 5) := by
  rw [slice_opcode, slice_funct3]
  cases h <;> simp [shamt5Carried, *]

/-- The modes of the 6-bit shifts (R78, D15). -/
theorem shamt6_mode : (shamt6Carried i).isSome = true → slice w 31 26 = 0 ∨ slice w 31 26 = 16 := by
  rw [slice_mode6]
  cases h <;> simp [shamt6Carried, *]

/-- The modes of the 5-bit shifts (R79, D15). -/
theorem shamt5_mode : (shamt5Carried i).isSome = true → slice w 31 25 = 0 ∨ slice w 31 25 = 32 := by
  rw [slice_funct7]
  cases h <;> simp [shamt5Carried, *]

end

/-- Bit 25 is the lowest of the 7-bit mode, and the highest of the six bits from 20 up (R79). -/
theorem bit25_of_mode {w : InstrWord} (h : slice w 31 25 = 0 ∨ slice w 31 25 = 32) :
    slice w 25 25 = 0 ∧ slice w 25 20 = slice w 24 20 := by
  simp only [slice, Nat.reduceAdd, Nat.reduceSub, Nat.reducePow] at h ⊢
  omega

/-- Settles O7: the operands are the fields of their formats, and each row's opcode says its format. -/
theorem fieldsOfFormatsRISU : Obligations.FieldsOfFormatsRISU := by
  intro w i hdec
  have h := (decode_iff w i).1 hdec
  have ho := decodes_operandsFrom h
  exact ⟨registerFields_of_operands ho, formatR_iff h, immI_signed ho, immS_signed ho, immU_signed ho, formatI_iff h,
    eq_ecall_iff h, eq_ebreak_iff h, formatS_iff h, formatU_iff h⟩

/-- Settles O8: the offsets are the fields of formats B and J, and each row's opcode says its format. -/
theorem fieldsOfFormatsBJ : Obligations.FieldsOfFormatsBJ := by
  intro w i hdec
  have h := (decode_iff w i).1 hdec
  have ho := decodes_operandsFrom h
  exact ⟨registerFields_of_operands ho, immB_signed ho, immJ_signed ho, formatB_iff h, formatJ_iff h⟩

/-- Settles O9: the modes a row allows leave bit 25 zero in the word-width group, so no word with it set decodes. -/
theorem fieldsOfShiftImmediates : Obligations.FieldsOfShiftImmediates := by
  refine ⟨fun w i hdec => ?_, fun w hop h3 h25 => decode_invalid_iff.2 fun i h => ?_⟩
  · have h := (decode_iff w i).1 hdec
    have ho := decodes_operandsFrom h
    refine ⟨registerFields_of_operands ho, fun sh hsh => ?_, fun sh hsh => ?_, shamt6_iff h, shamt5_iff h⟩
    · exact ⟨shamt6_slice ho sh hsh, shamt6_mode h (hsh ▸ rfl)⟩
    · have hmode := shamt5_mode h (hsh ▸ rfl)
      obtain ⟨-, hsame⟩ := bit25_of_mode hmode
      have hslice := shamt5_slice ho sh hsh
      exact ⟨hslice, hslice.trans hsame.symm, hmode⟩
  · obtain ⟨hzero, -⟩ := bit25_of_mode (shamt5_mode h ((shamt5_iff h).2 ⟨hop, h3⟩))
    omega

/-! ## Written out words -/

/-- Settles O6: each word is decoded by evaluation. -/
theorem writtenOutWordsDecode : Obligations.WrittenOutWordsDecode :=
  ⟨rfl, rfl, rfl, rfl, rfl, rfl, rfl, rfl, rfl, rfl, rfl, rfl⟩

end Sys2Proof.Proofs
end

section
/-! SUPPORT. The cycle of a step (`40_step_cycle.md`): what the fetch reads and which instruction the step runs, what one
instruction can do to the state, the word-width results, and how the minimal driver's run ends. -/

namespace Sys2Proof.Proofs

open Sys2Proof Sys2Proof.Machine Sys2Proof.Claims Sys2Proof.Laws

/-! ## Fetch and decode (R110 to R113) -/

/-- Settles O11: the fetched word is the sum of the four bytes at the pc, and a fetch outside memory ends the step. -/
theorem fetchReadsFourBytesAtThePc : Obligations.FetchReadsFourBytesAtThePc :=
  fun _ => ⟨fetch_toNat, fun hout => step_of_fetch_error (fetch_outside hout)⟩

/-- The byte decoder answers what the decoder of words answers of the four bytes read as one number (R70). -/
theorem decodeWord_of_decodeBytes {b0 b1 b2 b3 : Byte} {i : Instr} {rest : List Byte}
    (h : decodeBytes [b0, b1, b2, b3] = .ok (i, rest)) :
    decodeWord (BitVec.ofNat 32 (leValue [b0, b1, b2, b3])) = .ok i := by
  rw [ofNat_leValue_four]
  simp only [decodeBytes] at h
  split at h
  · cases h
    assumption
  · cases h

/-- Settles O12: the fetch and the byte decoder see the same word, and the step is the arm of what it decodes to. -/
theorem stepRunsTheDecodedInstruction : Obligations.StepRunsTheDecodedInstruction :=
  fun _ _ _ hin h => step_of_decode (fetch_inside hin) (decodeWord_of_decodeBytes h)

/-! ## What one instruction can do (R118, R119) -/

section
variable {i : Instr} {s : State}

theorem pcAfter_of_target {z : Int} (h : jumpTarget i s = some z) : pcAfter i s = z := by
  simp only [pcAfter, h]

theorem pcAfter_of_no_target (h : jumpTarget i s = none) : pcAfter i s = s.pc.toNat + 4 := by
  simp only [pcAfter, h]

end

section
variable (a b : Word)

theorem condEq_iff : condEq a b = true ↔ a = b := beq_iff_eq

theorem condNe_iff : condNe a b = true ↔ a ≠ b := bne_iff_ne

theorem condLt_iff : condLt a b = true ↔ a.toInt < b.toInt := BitVec.slt_iff_toInt_lt

theorem condGe_iff : condGe a b = true ↔ b.toInt ≤ a.toInt := by
  simp [condGe, BitVec.slt]

theorem condLtu_iff : condLtu a b = true ↔ a.toNat < b.toNat := BitVec.ult_iff_toNat_lt

theorem condGeu_iff : condGeu a b = true ↔ b.toNat ≤ a.toNat := by
  simp [condGeu, BitVec.ult]

end

/-- Everything an instruction that has a next state can have done: written its destination, moved the pc alone, stored
its bytes inside memory, or taken an exit. -/
inductive Effect (i : Instr) (s : State) : State → Prop where
  | register {rd : Reg} {target : Word} (v : Word) (hrd : destination i = some rd) (hno : storeAccess i s = none)
      (hpc : (target.toNat : Int) = pcAfter i s % 2 ^ 64) : Effect i s ((s.writeReg rd v).retire target)
  | control {target : Word} (hno : storeAccess i s = none) (hpc : (target.toNat : Int) = pcAfter i s % 2 ^ 64) :
      Effect i s (s.retire target)
  | memory {addr : Word} {n : Nat} {rs2 : Reg} {target : Word} (hacc : storeAccess i s = some (addr, n))
      (hdata : storeData i = some rs2) (hn : n ∈ ([1, 2, 4, 8] : List Nat)) (hin : addr.toNat + n ≤ s.mem.size)
      (hpc : (target.toNat : Int) = pcAfter i s % 2 ^ 64) :
      Effect i s (State.retire { s with mem := s.mem.setBytes addr.toNat (leBytes n (s.readReg rs2)) } target)
  | exit {e : VmExit} (he : i = .ecall ∧ e = .syscall ∨ i = .ebreak ∧ e = .notImplemented) :
      Effect i s { s with exit := some e }

section
variable {i : Instr} {s t : State}

/-- A branch moves the pc alone: to its target where the relation `p` that its condition decides holds (R140). -/
theorem branch_effect {cond : Word → Word → Bool} {rs1 rs2 : Reg} {imm : BitVec 13} {p : Prop} [Decidable p]
    (hp : cond (s.readReg rs1) (s.readReg rs2) = true ↔ p) (hno : storeAccess i s = none)
    (hi : jumpTarget i s = if p then some (s.pc.toNat + imm.toInt) else none)
    (h : branch cond rs1 rs2 imm s = .next t) : Effect i s t := by
  rw [branch_eq] at h
  cases Host.Outcome.next.inj h
  refine .control hno ?_
  by_cases hb : p
  · rw [if_pos (hp.2 hb), pcAfter_of_target (hi.trans (if_pos hb))]
    exact toNat_add_signExtend (by decide) s.pc imm
  · rw [if_neg (hb ∘ hp.1), pcAfter_of_no_target (hi.trans (if_neg hb))]
    exact toNat_add_four s.pc

/-- Every arm with a next state has one of the four effects. -/
theorem exec_effect (h : exec i s = .next t) : Effect i s t := by
  cases i
  case lui | auipc | addi | slti | sltiu | xori | ori | andi | slli | srli | srai | add | sub | sll | slt | sltu | xor
      | srl | sra | or | and | addiw | slliw | srliw | sraiw | addw | subw | sllw | srlw | sraw =>
    cases Host.Outcome.next.inj h
    exact .register _ rfl rfl (toNat_add_four s.pc)
  case jal | jalr =>
    cases Host.Outcome.next.inj h
    exact .register _ rfl rfl (toNat_add_signExtend (by decide) _ _)
  case beq => exact branch_effect (condEq_iff _ _) rfl rfl h
  case bne => exact branch_effect (condNe_iff _ _) rfl rfl h
  case blt => exact branch_effect (condLt_iff _ _) rfl rfl h
  case bge => exact branch_effect (condGe_iff _ _) rfl rfl h
  case bltu => exact branch_effect (condLtu_iff _ _) rfl rfl h
  case bgeu => exact branch_effect (condGeu_iff _ _) rfl rfl h
  case lb | lh | lw | lbu | lhu | lwu | ld =>
    obtain ⟨-, v, rfl⟩ := load_next h
    exact .register v rfl rfl (toNat_add_four s.pc)
  case sb | sh | sw | sd =>
    obtain ⟨hin, rfl⟩ := store_next h
    exact .memory rfl rfl (by decide) hin (toNat_add_four s.pc)
  case ecall =>
    cases Host.Outcome.next.inj h
    exact .exit (.inl ⟨rfl, rfl⟩)
  case ebreak =>
    cases Host.Outcome.next.inj h
    exact .exit (.inr ⟨rfl, rfl⟩)

/-- An instruction that reports `stepped` leaves the pc at `pcAfter` (R118). -/
theorem Effect.pc_eq (h : Effect i s t) (ht : t.exit = none) : (t.pc.toNat : Int) = pcAfter i s % 2 ^ 64 := by
  cases h with
  | register _ _ _ hpc | control _ hpc | memory _ _ _ _ hpc => exact hpc
  | exit => cases ht

/-- An instruction that reports an exit does nothing else (R226). -/
theorem Effect.eq_of_exit (h : Effect i s t) {e : VmExit} (ht : t.exit = some e) : t = { s with exit := some e } := by
  cases h with
  | register | control | memory => cases ht
  | exit => rw [← ht]

theorem Effect.curAlloc_eq (h : Effect i s t) : t.curAlloc = s.curAlloc := by
  cases h with
  | register => exact writeReg_curAlloc ..
  | control | memory | exit => rfl

theorem Effect.readReg_other (h : Effect i s t) {r : Reg} (hr : destination i ≠ some r) :
    t.readReg r = s.readReg r := by
  cases h with
  | register v hrd => exact readReg_writeReg_other _ _ _ _ fun heq => hr (heq ▸ hrd)
  | control | memory | exit => rfl

theorem Effect.mem_eq (h : Effect i s t) (hno : storeAccess i s = none) : t.mem = s.mem := by
  cases h with
  | register => exact writeReg_mem ..
  | control | exit => rfl
  | memory hacc => cases hno.symm.trans hacc

/-- A store changes no byte outside its own, which are 1, 2, 4 or 8; an instruction that takes an exit changes none. -/
theorem Effect.byte_outside (h : Effect i s t) (ht : t.exit = none) (hs : s.mem.wf) {addr : Word} {n : Nat}
    (hacc : storeAccess i s = some (addr, n)) : n ∈ ([1, 2, 4, 8] : List Nat) ∧
      ∀ a, ¬ (addr.toNat ≤ a ∧ a < addr.toNat + n) → t.mem.byte a = s.mem.byte a := by
  cases h with
  | register _ _ hno | control hno => cases hno.symm.trans hacc
  | exit => cases ht
  | memory hacc' _ hn hin =>
    cases hacc'.symm.trans hacc
    refine ⟨hn, fun a ha => ?_⟩
    rw [retire_mem, byte_setBytes hs (by simpa using hin), leBytes_length, if_neg ha]

end

/-- A step with a next state takes the exit of a word that does not decode, or has the effect of what it decodes to. -/
theorem step_next {s t : State} (h : step s = .next t) : ∃ w, fetchWord s = .ok w ∧
    (t = { s with exit := some (.invalidOpcode w) } ∨ ∃ i, decodeWord w = .ok i ∧ Effect i s t) := by
  obtain ⟨-, hs⟩ | ⟨w, -, hf, ⟨e, -, hs⟩ | ⟨i, hd, hs⟩⟩ := step_cases s
  · cases hs.symm.trans h
  · exact ⟨w, hf, .inl (Host.Outcome.next.inj (h.symm.trans hs))⟩
  · exact ⟨w, hf, .inr ⟨i, hd, exec_effect (hs.symm.trans h)⟩⟩

/-- A step that reports `stepped` has the effect of the instruction its word decodes to. -/
theorem step_stepped {s t : State} (h : step s = .next t) (ht : t.exit = none) :
    ∃ w i, fetchWord s = .ok w ∧ decodeWord w = .ok i ∧ Effect i s t := by
  obtain ⟨w, hf, rfl | ⟨i, hd, heff⟩⟩ := step_next h
  · cases ht
  · exact ⟨w, i, hf, hd, heff⟩

/-- A step that reports an exit does nothing else (R226). -/
theorem step_exit {s t : State} {e : VmExit} (h : step s = .next t) (ht : t.exit = some e) :
    t = { s with exit := some e } := by
  obtain ⟨w, -, rfl | ⟨i, -, heff⟩⟩ := step_next h
  · rw [← ht]
  · exact heff.eq_of_exit ht

/-- Settles O49: an exit changes the report alone, and every other effect leaves the pc at `pcAfter`. -/
theorem pcAdvancesOrJumps : Obligations.PcAdvancesOrJumps := by
  refine fun s t h => ⟨fun ht => ?_, fun ht => ?_⟩
  · obtain ⟨e, he⟩ := Option.ne_none_iff_exists'.1 ht
    rw [step_exit h he]
  · obtain ⟨w, i, hf, hd, heff⟩ := step_stepped h ht
    exact ⟨w, i, hf, hd, heff.pc_eq ht⟩

/-- Settles O50: the effect of the decoded instruction is one register, or the bytes of one store, or the pc alone. -/
theorem oneStepTouchesOnlyItsOwn : Obligations.OneStepTouchesOnlyItsOwn := by
  rintro s t ⟨hmem, -⟩ h ht
  obtain ⟨w, i, hf, hd, heff⟩ := step_stepped h ht
  exact ⟨w, i, hf, hd, heff.curAlloc_eq, fun _ => heff.readReg_other,
    fun hno _ => congrArg (Memory.byte · _) (heff.mem_eq hno), fun _ _ => heff.byte_outside ht hmem⟩

/-! ## Word-width results (R124, R204) -/

theorem isWordOp_iff {w : InstrWord} {i : Instr} (h : Decodes w i) :
    isWordOp i = true ↔ slice w 6 0 = 0x1B ∨ slice w 6 0 = 0x3B := by
  rw [slice_opcode]
  cases h <;> simp [isWordOp, *]

theorem low32_eq_iff (a b : Word) : low32 a = low32 b ↔ a.toNat % 2 ^ 32 = b.toNat % 2 ^ 32 := by
  rw [← BitVec.toNat_inj]
  simp [low32, BitVec.extractLsb'_toNat]

/-- The 5-bit shift amount lies in the low half. -/
theorem amount5_eq_low32 (v : Word) : amount5 v = ((low32 v).extractLsb' 0 5).toNat := by
  simp [amount5, low32, BitVec.extractLsb'_toNat]

/-- From two states whose registers agree in their low halves a word-width instruction finishes the same 32-bit result. -/
theorem exec_wordOp_congr {i : Instr} {rd : Reg} {s s' : State} (hi : isWordOp i = true)
    (hrd : destination i = some rd) (h : ∀ r, low32 (s.readReg r) = low32 (s'.readReg r)) :
    ∃ p, exec i s = finishWord rd p s ∧ exec i s' = finishWord rd p s' := by
  have hamount : ∀ r, amount5 (s.readReg r) = amount5 (s'.readReg r) := fun r => by
    rw [amount5_eq_low32, amount5_eq_low32, h]
  cases i
  case addiw | slliw | srliw | sraiw | addw | subw | sllw | srlw | sraw =>
    cases hrd
    refine ⟨_, rfl, ?_⟩
    simp only [h, hamount]
    rfl
  all_goals cases hi

/-- The destination of a word-width instruction reads `sext_32` of a pattern: the result, or 0 where it is x0. -/
theorem readReg_writeReg_sext32 (s : State) (rd : Reg) (p : BitVec 32) :
    (s.writeReg rd (sext32 p)).readReg rd = sext32 (if rd = 0 then 0 else p) := by
  split
  case isTrue h => subst h; rfl
  case isFalse h => exact readReg_writeReg_same s rd _ h

theorem sext32_getLsbD_high (p : BitVec 32) {k : Nat} (hlo : 31 ≤ k) (hhi : k < 64) :
    (sext32 p).getLsbD k = p.msb := by
  rw [sext32, BitVec.getLsbD_signExtend, decide_eq_true hhi, Bool.true_and]
  split
  · obtain rfl : k = 31 := by omega
    rw [BitVec.msb_eq_getLsbD_last]
  · rfl

/-- Settles O42: both states finish the same 32-bit result, and the bits of `sext_32` from 31 up are its sign. -/
theorem wordResultsIgnoreHighHalves : Obligations.WordResultsIgnoreHighHalves := by
  refine ⟨fun w i h => isWordOp_iff ((decode_iff w i).1 h), fun i rd s s' hi hrd hlow => ?_⟩
  obtain ⟨p, hs, hs'⟩ := exec_wordOp_congr hi hrd fun r => (low32_eq_iff _ _).2 (hlow r)
  have ht := readReg_writeReg_sext32 s rd p
  refine ⟨_, _, hs, hs', ht.trans (readReg_writeReg_sext32 s' rd p).symm, ⟨_, ht⟩, fun k hlo hhi => ?_⟩
  rw [retire_readReg, ht, sext32_getLsbD_high _ hlo hhi, sext32_getLsbD_high _ (by decide) (by decide)]

/-! ## The outcomes of a step and the minimal driver (R121, R234) -/

/-- A step is the bounds violation, or reports an exit, or reports `stepped`. -/
theorem step_outcomes (s : State) : (∃ f, step s = .fault f) ∨
    (∃ t e, step s = .next t ∧ t.exit = some e) ∨ ∃ t, step s = .next t ∧ t.exit = none := by
  cases h : step s with
  | next t =>
    cases he : t.exit with
    | none => exact .inr (.inr ⟨t, rfl, he⟩)
    | some e => exact .inr (.inl ⟨t, e, rfl, he⟩)
  | fault f => exact .inl ⟨f, rfl⟩
  | refused r =>
    obtain ⟨-, hs⟩ | ⟨w, -, -, ⟨e, -, hs⟩ | ⟨i, -, hs⟩⟩ := step_cases s
    · cases hs.symm.trans h
    · cases hs.symm.trans h
    · exact absurd (hs.symm.trans h) (exec_never_refuses i s r)

/-- After an exit the step starts from the same state but for the report, which no step reads. -/
theorem step_repeats_exit {s t : State} {e : VmExit} (h : step s = .next t) (ht : t.exit = some e) :
    step t = .next t := by
  have heq := step_exit h ht
  have hagain := step_withReport s (some e) s.curAlloc
  rw [h] at hagain
  subst heq
  exact hagain

/-- Some state that fewer than `k` steps, all `stepped`, lead to from `s` satisfies `P`. -/
def Within (k : Nat) (s : State) (P : State → Prop) : Prop := ∃ j < k, ∃ u, RunsTo j s u ∧ P u

theorem not_within_zero (s : State) (P : State → Prop) : ¬ Within 0 s P :=
  fun ⟨_, hj, _⟩ => Nat.not_lt_zero _ hj

theorem within_succ {k : Nat} {s : State} {P : State → Prop} :
    Within (k + 1) s P ↔ P s ∨ ∃ t, step s = .next t ∧ t.exit = none ∧ Within k t P := by
  constructor
  · rintro ⟨j, hj, u, hrun, hu⟩
    cases j with
    | zero =>
      cases hrun
      exact .inl hu
    | succ j =>
      obtain ⟨t, hs, ht, hrun⟩ := hrun
      exact .inr ⟨t, hs, ht, j, Nat.lt_of_succ_lt_succ hj, u, hrun, hu⟩
  · rintro (hs | ⟨t, hs, ht, j, hj, u, hrun, hu⟩)
    · exact ⟨0, k.succ_pos, s, rfl, hs⟩
    · exact ⟨j + 1, Nat.succ_lt_succ hj, u, ⟨t, hs, ht, hrun⟩, hu⟩

/-- What `drive k s` ending as `d` says of the steps from `s` (R121). -/
def EndsAs (k : Nat) (s : State) (d : DriverEnd) : Prop :=
  match d with
  | .exited e t => Within k s fun u => step u = .next t ∧ t.exit = some e
  | .dead f => Within k s fun u => step u = .fault f
  | .outOfFuel t => RunsTo k s t
  | .refused _ => False

section
variable {s t : State} {d : DriverEnd}

theorem endsAs_zero : EndsAs 0 s d ↔ .outOfFuel s = d := by
  cases d <;> simp [EndsAs, not_within_zero, RunsTo, eq_comm]

variable {k : Nat}

theorem endsAs_succ_of_fault {f : Fault} (h : step s = .fault f) : EndsAs (k + 1) s d ↔ .dead f = d := by
  cases d <;> simp [EndsAs, within_succ, RunsTo, h]

/-- Only its own end fits a step that reports an exit: the step has no second outcome. -/
theorem endsAs_succ_of_exit {e : VmExit} (h : step s = .next t) (ht : t.exit = some e) :
    EndsAs (k + 1) s d ↔ .exited e t = d := by
  cases d with
  | exited => grind [EndsAs, within_succ]
  | dead | outOfFuel | refused => simp [EndsAs, within_succ, RunsTo, h, ht]

/-- A step that reports `stepped` is none of the ends, so the run ends as it does from there. -/
theorem endsAs_succ_of_stepped (h : step s = .next t) (ht : t.exit = none) :
    EndsAs (k + 1) s d ↔ EndsAs k t d := by
  cases d with
  | exited => grind [EndsAs, within_succ]
  | dead | outOfFuel | refused => simp [EndsAs, within_succ, RunsTo, h, ht]

end

/-- How the minimal driver ends is read off the steps: by induction over its bound, along the way each step goes. -/
theorem drive_eq_iff {k : Nat} {s : State} {d : DriverEnd} : drive k s = d ↔ EndsAs k s d := by
  induction k generalizing s with
  | zero => exact endsAs_zero.symm
  | succ k ih =>
    obtain ⟨f, h⟩ | ⟨t, e, h, ht⟩ | ⟨t, h, ht⟩ := step_outcomes s
    · rw [drive_of_fault k h, endsAs_succ_of_fault h]
    · rw [drive_of_exit k h ht, endsAs_succ_of_exit h ht]
    · rw [drive_of_stepped k h ht, endsAs_succ_of_stepped h ht, ih]

/-- Settles O58: no step is refused, an exit leaves the state that took it, and the driver follows the steps. -/
theorem exitsRepeatAndEndTheMinimalDriver : Obligations.ExitsRepeatAndEndTheMinimalDriver := by
  refine ⟨fun s => ?_, fun s t h ht => ?_,
    fun k s => ⟨fun _ _ => drive_eq_iff, fun _ => drive_eq_iff, fun _ => drive_eq_iff, fun _ => drive_eq_iff.1⟩⟩
  · obtain ⟨⟨addr, n⟩, h⟩ | ⟨t, -, h, -⟩ | ⟨t, h, -⟩ := step_outcomes s
    · exact .inr ⟨addr, n, h⟩
    · exact .inl ⟨t, h⟩
    · exact .inl ⟨t, h⟩
  · obtain ⟨e, he⟩ := Option.ne_none_iff_exists'.1 ht
    exact step_repeats_exit h he

end Sys2Proof.Proofs
end

section
/-! SUPPORT. LUI and AUIPC (`41_upper_immediate.md`): what selecting a row by its opcode decodes, what an instruction that
finishes a register does to the whole state, and the U immediate as a number. -/

namespace Sys2Proof.Proofs

open Sys2Proof Sys2Proof.Machine Sys2Proof.Claims Sys2Proof.Laws

/-! ## Rows that the opcode alone selects (R84) -/

theorem selects_of_opcode {bits : InstrWord} {op : BitVec 7} {mk : InstrWord → Instr}
    (hbits : bits = (0#25 ++ op : BitVec 32)) (h : ∀ w, opcodeOf w = op → Decodes w (mk w)) :
    Selects 0x0000007F#32 bits mk :=
  fun w hw => (decode_iff w _).2 (h w ((opcode_mask hbits).1 hw))

/-! ## Instructions that finish a register (R116, R118) -/

/-- An instruction that runs `finish` on a value that `P` describes changes rd and the pc only. -/
theorem computes_of_finish {i : Instr} {rd : Reg} {P : State → Word → Prop} {value : State → Word}
    (hexec : ∀ s, exec i s = finish rd (value s) s) (hvalue : ∀ s, P s (value s)) : Computes i rd P := by
  intro s
  refine ⟨(s.writeReg rd (value s)).retire (s.pc + 4), value s, (hexec s).trans (finish_eq ..), hvalue s,
    fun r => ?_, rfl, ⟨rfl, ?_⟩, ?_⟩
  · rw [retire_readReg, readReg_writeReg]
  · simp
  · simp [SameMemory]

/-! ## The U immediate (R76) -/

/-- The 20-bit field counts multiples of 4096. -/
theorem toInt_imm20_eq_mul (imm : BitVec 20) : (imm20 imm).toInt = imm.toInt * 4096 := by
  rw [toInt_imm20, ← toInt_eq_signed (by decide)]

/-- Adding a signed word is integer addition modulo 2^64 (R122). -/
theorem toNat_add_toInt (a b : Word) : ((a + b).toNat : Int) = (a.toNat + b.toInt) % 2 ^ 64 := by
  simpa using toNat_add_signExtend le_rfl a b

/-! ## The two instructions (R130, R131) -/

/-- Settles O17: LUI finishes rd with its U immediate. -/
theorem luiWritesTheUpperImmediate : Obligations.LuiWritesTheUpperImmediate :=
  ⟨selects_of_opcode rfl fun _ => .lui,
    fun _ imm => computes_of_finish (value := fun _ => imm20 imm) (fun _ => rfl) fun _ => toInt_imm20_eq_mul imm⟩

/-- Settles O18: AUIPC finishes rd with its own address plus its U immediate. -/
theorem auipcAddsTheUpperImmediateToThePc : Obligations.AuipcAddsTheUpperImmediateToThePc := by
  refine ⟨selects_of_opcode rfl fun _ => .auipc,
    fun _ imm => computes_of_finish (value := fun s => s.pc + imm20 imm) (fun _ => rfl) fun s => ?_⟩
  rw [toNat_add_toInt, toInt_imm20_eq_mul]

end Sys2Proof.Proofs
end

section
/-! SUPPORT. JAL and JALR (`42_jumps.md`): what selecting a row by its opcode and funct3 decodes, and what linking and
jumping does to the whole state. -/

namespace Sys2Proof.Proofs

open Sys2Proof Sys2Proof.Machine Sys2Proof.Claims Sys2Proof.Laws

/-! ## Rows that the opcode and funct3 select (R84) -/

theorem selects_of_funct3 {bits : InstrWord} {op : BitVec 7} {f3 : BitVec 3} {mk : InstrWord → Instr}
    (hbits : bits = (0#17 ++ f3 ++ 0#5 ++ op : BitVec 32))
    (h : ∀ w, opcodeOf w = op → funct3Of w = f3 → Decodes w (mk w)) : Selects 0x0000707F#32 bits mk := by
  intro w hw
  obtain ⟨hop, h3⟩ := (funct3_mask hbits).1 hw
  exact (decode_iff w _).2 (h w hop h3)

/-! ## Instructions that end by writing a register and moving the pc (R116, R118) -/

section
variable (s : State) (rd : Reg) (v target : Word)

theorem writeReg_retire_writesReg : WritesReg s ((s.writeReg rd v).retire target) rd v :=
  fun r => readReg_writeReg s rd r v

theorem writeReg_retire_stepped : Stepped s ((s.writeReg rd v).retire target) :=
  ⟨rfl, writeReg_curAlloc s rd v⟩

theorem writeReg_retire_sameMemory : SameMemory s ((s.writeReg rd v).retire target) := by
  simp [SameMemory]

end

/-- An instruction that links and jumps to a base plus a signed offset. The base is a word of the state before the
step, so the link never reaches it, whatever rd is. -/
theorem jumps_of_linkAndJump {i : Instr} {rd : Reg} {base : State → Word} {n : Nat} {imm : BitVec n} (hn : n ≤ 64)
    (hexec : ∀ s, exec i s = linkAndJump rd (base s + imm.signExtend 64) s) :
    Jumps i rd fun s => (base s).toNat + imm.toInt :=
  fun s => ⟨_, (hexec s).trans (linkAndJump_eq ..), writeReg_retire_writesReg _ _ _ _,
    toNat_add_signExtend hn (base s) imm, writeReg_retire_stepped .., writeReg_retire_sameMemory ..⟩

/-! ## The two instructions (R135, R136) -/

/-- The lowest bit of the J immediate is no field of the word: it is 0 (R77). -/
theorem immJ_mod_two (w : InstrWord) : (immJ w).toNat % 2 = 0 := by
  rw [immJ_toNat]
  omega

/-- Settles O19: JAL links and jumps from its own address. -/
theorem jalLinksAndJumps : Obligations.JalLinksAndJumps :=
  ⟨selects_of_opcode rfl fun _ => .jal, immJ_mod_two,
    fun _ _ => jumps_of_linkAndJump (base := State.pc) (by decide) fun _ => rfl⟩

/-- Settles O20: JALR links and jumps from rs1; of its opcode's rows only funct3 000 is listed. -/
theorem jalrLinksAndJumpsToTheOldBase : Obligations.JalrLinksAndJumpsToTheOldBase := by
  refine ⟨selects_of_funct3 rfl fun _ => .jalr, fun w hop h3 => ?_, fun _ rs1 _ => ?_⟩
  · obtain ⟨hjalr, -⟩ := unlistedCombinationsAreInvalid w
    exact (hjalr hop).2 h3
  · exact jumps_of_linkAndJump (base := (State.readReg · rs1)) (by decide) fun _ => rfl

end Sys2Proof.Proofs
end

section
/-! SUPPORT. The six branches (`43_branches.md`): what comparing two registers and moving the pc does to the whole
state. -/

namespace Sys2Proof.Proofs

open Sys2Proof Sys2Proof.Machine Sys2Proof.Claims Sys2Proof.Laws

/-- An instruction that runs `branch` on a condition that decides `rel` moves the pc alone (R140). -/
theorem branches_of_branch {i : Instr} {rs1 rs2 : Reg} {imm : BitVec 13} {cond : Word → Word → Bool}
    {rel : Word → Word → Prop} (hexec : ∀ s, exec i s = branch cond rs1 rs2 imm s)
    (hrel : ∀ a b, cond a b = true ↔ rel a b) : Branches i rs1 rs2 imm rel := by
  intro s
  refine ⟨_, (hexec s).trans (branch_eq ..), fun _ => rfl, ⟨rfl, fun _ => rfl⟩, ⟨rfl, rfl⟩,
    fun htaken => ?_, fun hnot => ?_⟩
  · rw [retire_pc, if_pos ((hrel _ _).2 htaken)]
    exact toNat_add_signExtend (by decide) s.pc imm
  · rw [retire_pc, if_neg (hnot ∘ (hrel _ _).1)]

/-- Settles O21: the conditions of BEQ and BNE decide equality and its negation. -/
theorem beqBneBranchOnEquality : Obligations.BeqBneBranchOnEquality :=
  ⟨selects_of_funct3 rfl fun _ => .beq, selects_of_funct3 rfl fun _ => .bne,
    fun _ _ _ => ⟨branches_of_branch (fun _ => rfl) condEq_iff, branches_of_branch (fun _ => rfl) condNe_iff⟩⟩

/-- Settles O22: the conditions of BLT and BGE decide the order of the signed readings. -/
theorem bltBgeBranchOnSignedOrder : Obligations.BltBgeBranchOnSignedOrder :=
  ⟨selects_of_funct3 rfl fun _ => .blt, selects_of_funct3 rfl fun _ => .bge,
    fun _ _ _ => ⟨branches_of_branch (fun _ => rfl) condLt_iff, branches_of_branch (fun _ => rfl) condGe_iff⟩⟩

/-- Settles O23: the conditions of BLTU and BGEU decide the order of the unsigned readings. -/
theorem bltuBgeuBranchOnUnsignedOrder : Obligations.BltuBgeuBranchOnUnsignedOrder :=
  ⟨selects_of_funct3 rfl fun _ => .bltu, selects_of_funct3 rfl fun _ => .bgeu,
    fun _ _ _ => ⟨branches_of_branch (fun _ => rfl) condLtu_iff, branches_of_branch (fun _ => rfl) condGeu_iff⟩⟩

end Sys2Proof.Proofs
end

section
/-! SUPPORT. The seven loads (`44_loads.md`): what reading memory and finishing a register does to the whole state, and
the extensions of R48 as numbers. -/

namespace Sys2Proof.Proofs

open Sys2Proof Sys2Proof.Machine Sys2Proof.Claims Sys2Proof.Laws

/-! ## Instructions that run `load` (R150) -/

/-- An instruction that runs `load` completes inside memory and is the bounds violation outside it. That a sum of `n`
bytes is below 2^(8n) is all that the extension is told. -/
theorem loads_of_load {i : Instr} {rd rs1 : Reg} {imm : BitVec 12} {n : Nat} {ext : Nat → Word} {P : Nat → Word → Prop}
    (hexec : ∀ s, exec i s = load n ext rd rs1 imm s) (hext : ∀ v < 2 ^ (8 * n), P v (ext v)) :
    Loads i rd rs1 imm n P := by
  refine fun s => ⟨fun hin => ?_, fun hout => (hexec s).trans (load_outside ext rd hout)⟩
  have hlt : leSum s.mem (effectiveAddress s rs1 imm).toNat n < 2 ^ (8 * n) := by
    simpa [pow_mul] using leSum_lt s.mem (effectiveAddress s rs1 imm).toNat n
  refine ⟨_, _, ?_, hext _ hlt, writeReg_retire_writesReg _ _ _ _, rfl, writeReg_retire_stepped ..,
    writeReg_retire_sameMemory ..⟩
  rw [hexec, load_inside ext rd hin, leValue_bytes, finish_eq]

/-! ## The two extensions (R48) -/

theorem toInt_sextLoaded {bits v : Nat} (hbits : 0 < bits ∧ bits ≤ 64) (hv : v < 2 ^ bits) :
    (sextLoaded bits v).toInt = signed bits v := by
  rw [sextLoaded, toInt_signExtend_eq_signed hbits, BitVec.toNat_ofNat, Nat.mod_eq_of_lt hv]

theorem toNat_zextLoaded {bits v : Nat} (hbits : bits ≤ 64) (hv : v < 2 ^ bits) : (zextLoaded bits v).toNat = v := by
  rw [zextLoaded, BitVec.zeroExtend_eq_setWidth, BitVec.toNat_setWidth_of_le hbits, BitVec.toNat_ofNat,
    Nat.mod_eq_of_lt hv]

section
variable {i : Instr} {rd rs1 : Reg} {imm : BitVec 12} {n : Nat}

/-- A load that sign-extends its `n` bytes gives their signed reading. -/
theorem loads_signed (hn : 0 < n ∧ n ≤ 8) (hexec : ∀ s, exec i s = load n (sextLoaded (8 * n)) rd rs1 imm s) :
    Loads i rd rs1 imm n fun v x => x.toInt = signed (8 * n) v :=
  loads_of_load hexec fun _ => toInt_sextLoaded (by omega)

/-- A load that zero-extends its `n` bytes gives their unsigned reading. -/
theorem loads_unsigned (hn : n ≤ 8) (hexec : ∀ s, exec i s = load n (zextLoaded (8 * n)) rd rs1 imm s) :
    Loads i rd rs1 imm n fun v x => x.toNat = v :=
  loads_of_load hexec fun _ => toNat_zextLoaded (by omega)

end

/-! ## The seven instructions (R151 to R157) -/

/-- Settles O24: LB and LBU run `load` on one byte, each with its extension. -/
theorem lbLbuLoadAByte : Obligations.LbLbuLoadAByte :=
  ⟨selects_of_funct3 rfl fun _ => .lb, selects_of_funct3 rfl fun _ => .lbu,
    fun _ _ _ => ⟨loads_signed (by decide) fun _ => rfl, loads_unsigned (by decide) fun _ => rfl⟩⟩

/-- Settles O25: LH and LHU run `load` on two bytes, whatever the alignment. -/
theorem lhLhuLoadAHalfword : Obligations.LhLhuLoadAHalfword :=
  ⟨selects_of_funct3 rfl fun _ => .lh, selects_of_funct3 rfl fun _ => .lhu,
    fun _ _ _ => ⟨loads_signed (by decide) fun _ => rfl, loads_unsigned (by decide) fun _ => rfl⟩⟩

/-- Settles O26: LW and LWU run `load` on four bytes, and LD on eight, where zero-extension leaves nothing to extend. -/
theorem lwLwuLdLoadWords : Obligations.LwLwuLdLoadWords :=
  ⟨selects_of_funct3 rfl fun _ => .lw, selects_of_funct3 rfl fun _ => .lwu, selects_of_funct3 rfl fun _ => .ld,
    fun _ _ _ => ⟨loads_signed (by decide) fun _ => rfl, loads_unsigned (by decide) fun _ => rfl,
      loads_unsigned (by decide) fun _ => rfl⟩⟩

end Sys2Proof.Proofs
end

section
/-! SUPPORT. The four stores (`45_stores.md`): what writing memory and going to pc + 4 does to the whole state. -/

namespace Sys2Proof.Proofs

open Sys2Proof Sys2Proof.Machine Sys2Proof.Claims Sys2Proof.Laws

/-! ## Instructions that run `store` (R160) -/

/-- An instruction that runs `store` completes inside memory and is the bounds violation outside it. The data, like the
address, is read in the state before the write, and only the canonical form of that memory is used. -/
theorem stores_of_store {i : Instr} {rs1 rs2 : Reg} {imm : BitVec 12} {n : Nat}
    (hexec : ∀ s, exec i s = store n rs1 rs2 imm s) : Stores i rs1 rs2 imm n := by
  rintro s ⟨hm, -⟩
  refine ⟨fun hin => ?_, fun hout => (hexec s).trans (store_outside rs2 hout)⟩
  exact ⟨_, (hexec s).trans (store_inside rs2 hin), setBytes_storedAt hm _ hin, fun _ => rfl, rfl, rfl, rfl⟩

/-! ## The four instructions (R161 to R164) -/

/-- Settles O27: SB and SH run `store` on one byte and on two. -/
theorem sbShStoreTheLowBytes : Obligations.SbShStoreTheLowBytes :=
  ⟨selects_of_funct3 rfl fun _ => .sb, selects_of_funct3 rfl fun _ => .sh,
    fun _ _ _ => ⟨stores_of_store fun _ => rfl, stores_of_store fun _ => rfl⟩⟩

/-- Settles O28: SW runs `store` on four bytes, and SD on all eight. -/
theorem swSdStoreWords : Obligations.SwSdStoreWords :=
  ⟨selects_of_funct3 rfl fun _ => .sw, selects_of_funct3 rfl fun _ => .sd,
    fun _ _ _ => ⟨stores_of_store fun _ => rfl, stores_of_store fun _ => rfl⟩⟩

end Sys2Proof.Proofs
end

section
/-! SUPPORT. The nine register-immediate instructions (`46_alu_immediate.md`): the I immediate as a number and bit by
bit, the word a comparison writes, the shifts as arithmetic, and which word the 6-bit mode selects. -/

namespace Sys2Proof.Proofs

open Sys2Proof Sys2Proof.Machine Sys2Proof.Claims Sys2Proof.Laws

/-! ## The I immediate extended to 64 bits (R73, R81) -/

theorem toInt_imm12 (imm : BitVec 12) : (imm12 imm).toInt = imm.toInt :=
  BitVec.toInt_signExtend_of_le (by decide)

/-- Read as unsigned, the extended immediate is its signed value modulo 2^64 (R172). -/
theorem toNat_imm12 (imm : BitVec 12) : ((imm12 imm).toNat : Int) = imm.toInt % 2 ^ 64 := by
  simpa [imm12] using toNat_add_signExtend (by decide) 0 imm

/-- Extending copies bit 11, the sign, into every higher bit. -/
theorem getLsbD_imm12 (imm : BitVec 12) {k : Nat} (hk : k < 64) : (imm12 imm).getLsbD k = imm.getLsbD (min k 11) := by
  rw [imm12, BitVec.getLsbD_signExtend, decide_eq_true hk, Bool.true_and]
  split
  case isTrue hlow => rw [Nat.min_eq_left (by omega)]
  case isFalse hhigh => rw [Nat.min_eq_right (by omega), BitVec.msb_eq_getLsbD_last]

/-! ## The word a comparison writes (R171, R188) -/

theorem boolWord_eq_ite {b : Bool} {p : Prop} [Decidable p] (h : b = true ↔ p) : boolWord b = if p then 1 else 0 :=
  if_congr h rfl rfl

/-! ## Shifts as arithmetic (R176 to R178) -/

section
variable {width : Nat} (x : BitVec width) (n : Nat)

theorem toNat_shiftLeft_eq_mul : (x <<< n).toNat = x.toNat * 2 ^ n % 2 ^ width := by
  rw [BitVec.toNat_shiftLeft, Nat.shiftLeft_eq]

theorem toNat_ushiftRight_eq_div : (x >>> n).toNat = x.toNat / 2 ^ n := by
  rw [BitVec.toNat_ushiftRight, Nat.shiftRight_eq_div_pow]

/-- The arithmetic shift is the floor of the quotient: division of integers by a positive one rounds down. -/
theorem toInt_sshiftRight_eq_div : (x.sshiftRight n).toInt = x.toInt / 2 ^ n := by
  rw [BitVec.toInt_sshiftRight, Int.shiftRight_eq_div_pow, Nat.cast_pow, Nat.cast_ofNat]

end

/-! ## Rows that the opcode, funct3 and the 6-bit mode select (R80, R84) -/

theorem selects_of_mode6 {bits : InstrWord} {op : BitVec 7} {f3 : BitVec 3} {m : BitVec 6} {mk : InstrWord → Instr}
    (hbits : bits = (m ++ 0#11 ++ f3 ++ 0#5 ++ op : BitVec 32))
    (h : ∀ w, opcodeOf w = op → funct3Of w = f3 → mode6Of w = m → Decodes w (mk w)) :
    Selects 0xFC00707F#32 bits mk := by
  intro w hw
  obtain ⟨hop, h3, hm⟩ := (mode6_mask hbits).1 hw
  exact (decode_iff w _).2 (h w hop h3 hm)

/-- Of opcode 0010011 the words without a row are the shifts of a mode that R80 does not list (R87, D14). -/
theorem aluImm_invalid_iff {w : InstrWord} (hop : slice w 6 0 = 0x13) :
    decodeWord w = .error (.invalidOpcode w) ↔
      (slice w 14 12 = 1 ∧ slice w 31 26 ≠ 0) ∨ (slice w 14 12 = 5 ∧ slice w 31 26 ≠ 0 ∧ slice w 31 26 ≠ 16) := by
  obtain ⟨-, -, -, -, haluImm, -⟩ := unlistedCombinationsAreInvalid w
  exact haluImm hop

/-! ## The nine instructions (R170 to R178) -/

/-- Settles O29: ADDI finishes rd with x[rs1] plus its immediate. -/
theorem addiAddsTheImmediate : Obligations.AddiAddsTheImmediate :=
  ⟨selects_of_funct3 rfl fun _ => .addi,
    fun _ rs1 imm => computes_of_finish (fun _ => rfl) fun s => toNat_add_signExtend (by decide) (s.readReg rs1) imm⟩

/-- Settles O30: the conditions of SLTI and SLTIU decide the order against the immediate, read signed and unsigned. -/
theorem sltiSltiuSetOnOrder : Obligations.SltiSltiuSetOnOrder := by
  refine ⟨selects_of_funct3 rfl fun _ => .slti, selects_of_funct3 rfl fun _ => .sltiu, fun _ rs1 imm => ⟨?slti, ?sltiu⟩⟩
  case slti =>
    refine computes_of_finish (fun _ => rfl) fun s => boolWord_eq_ite ?_
    rw [condLt_iff, toInt_imm12]
  case sltiu =>
    refine computes_of_finish (fun _ => rfl) fun s => boolWord_eq_ite ?_
    rw [condLtu_iff, ← toNat_imm12, Int.ofNat_lt]

/-- Settles O31: the operations work bit by bit, and the extended immediate repeats its bit 11. -/
theorem xoriOriAndiAreBitwise : Obligations.XoriOriAndiAreBitwise := by
  refine ⟨selects_of_funct3 rfl fun _ => .xori, selects_of_funct3 rfl fun _ => .ori, selects_of_funct3 rfl fun _ => .andi,
    fun _ rs1 imm => ⟨computes_of_finish (fun _ => rfl) fun s k hk => ?xori,
      computes_of_finish (fun _ => rfl) fun s k hk => ?ori, computes_of_finish (fun _ => rfl) fun s k hk => ?andi⟩⟩
  all_goals rw [← getLsbD_imm12 imm hk]
  case xori => exact BitVec.getLsbD_xor
  case ori => exact BitVec.getLsbD_or
  case andi => exact BitVec.getLsbD_and

/-- Settles O32: each shift is a product or a quotient by a power of two, and the modes with a row are 0 and 16. -/
theorem shiftImmediatesShift : Obligations.ShiftImmediatesShift := by
  refine ⟨selects_of_mode6 rfl fun _ => .slli, selects_of_mode6 rfl fun _ => .srli, selects_of_mode6 rfl fun _ => .srai,
    fun w hop h3 hm => (aluImm_invalid_iff hop).2 (.inl ⟨h3, hm⟩),
    fun w hop h3 hzero hsixteen => (aluImm_invalid_iff hop).2 (.inr ⟨h3, hzero, hsixteen⟩),
    fun _ rs1 sh => ⟨?slli, ?srli, ?srai⟩⟩
  case slli => exact computes_of_finish (fun _ => rfl) fun s => toNat_shiftLeft_eq_mul (s.readReg rs1) sh.toNat
  case srli => exact computes_of_finish (fun _ => rfl) fun s => toNat_ushiftRight_eq_div (s.readReg rs1) sh.toNat
  case srai => exact computes_of_finish (fun _ => rfl) fun s => toInt_sshiftRight_eq_div (s.readReg rs1) sh.toNat

end Sys2Proof.Proofs
end

section
/-! SUPPORT. The ten register-register instructions (`47_alu_register.md`): which word funct7 selects, subtraction modulo
2^64, and the 6-bit shift amount as a number. -/

namespace Sys2Proof.Proofs

open Sys2Proof Sys2Proof.Machine Sys2Proof.Claims Sys2Proof.Laws

/-! ## Rows that the opcode, funct3 and funct7 select (R84) -/

theorem selects_of_funct7 {bits : InstrWord} {op : BitVec 7} {f3 : BitVec 3} {f7 : BitVec 7} {mk : InstrWord → Instr}
    (hbits : bits = (f7 ++ 0#10 ++ f3 ++ 0#5 ++ op : BitVec 32))
    (h : ∀ w, opcodeOf w = op → funct3Of w = f3 → funct7Of w = f7 → Decodes w (mk w)) :
    Selects 0xFE00707F#32 bits mk := by
  intro w hw
  obtain ⟨hop, h3, h7⟩ := (funct7_mask hbits).1 hw
  exact (decode_iff w _).2 (h w hop h3 h7)

/-! ## Values (R122, R123) -/

/-- Subtracting words is integer subtraction modulo 2^64. -/
theorem toNat_sub_eq_emod (a b : Word) : ((a - b).toNat : Int) = (a.toNat - b.toNat : Int) % 2 ^ 64 := by
  have hb := b.isLt
  rw [BitVec.toNat_sub]
  omega

/-- The 58 bits above the amount do not count. -/
theorem amount6_eq_mod (v : Word) : amount6 v = v.toNat % 64 := by
  rw [amount6, toNat_slice]
  omega

/-! ## The ten instructions (R185 to R194) -/

/-- Settles O33: ADD and SUB finish rd with the sum and the difference of the two words. -/
theorem addSubAreModular : Obligations.AddSubAreModular :=
  ⟨selects_of_funct7 rfl fun _ => .add, selects_of_funct7 rfl fun _ => .sub, fun _ rs1 rs2 =>
    ⟨computes_of_finish (fun _ => rfl) fun s => BitVec.toNat_add (s.readReg rs1) (s.readReg rs2),
      computes_of_finish (fun _ => rfl) fun s => toNat_sub_eq_emod (s.readReg rs1) (s.readReg rs2)⟩⟩

/-- Settles O34: the conditions of SLT and SLTU decide the order of the signed and of the unsigned readings. -/
theorem sltSltuSetOnOrder : Obligations.SltSltuSetOnOrder :=
  ⟨selects_of_funct7 rfl fun _ => .slt, selects_of_funct7 rfl fun _ => .sltu, fun _ _ _ =>
    ⟨computes_of_finish (fun _ => rfl) fun _ => boolWord_eq_ite (condLt_iff _ _),
      computes_of_finish (fun _ => rfl) fun _ => boolWord_eq_ite (condLtu_iff _ _)⟩⟩

/-- Settles O35: the operations on words work bit by bit. -/
theorem xorOrAndAreBitwise : Obligations.XorOrAndAreBitwise :=
  ⟨selects_of_funct7 rfl fun _ => .xor, selects_of_funct7 rfl fun _ => .or, selects_of_funct7 rfl fun _ => .and,
    fun _ _ _ => ⟨computes_of_finish (fun _ => rfl) fun _ _ _ => BitVec.getLsbD_xor,
      computes_of_finish (fun _ => rfl) fun _ _ _ => BitVec.getLsbD_or,
      computes_of_finish (fun _ => rfl) fun _ _ _ => BitVec.getLsbD_and⟩⟩

/-- Settles O36: the amount is x[rs2] mod 64, and each shift is a product or a quotient by that power of two. -/
theorem registerShiftsUseSixBits : Obligations.RegisterShiftsUseSixBits := by
  refine ⟨selects_of_funct7 rfl fun _ => .sll, selects_of_funct7 rfl fun _ => .srl, selects_of_funct7 rfl fun _ => .sra,
    fun _ rs1 rs2 => ?_⟩
  simp only [← amount6_eq_mod]
  refine ⟨?sll, ?srl, ?sra⟩
  case sll => exact computes_of_finish (fun _ => rfl) fun s => toNat_shiftLeft_eq_mul (s.readReg rs1) _
  case srl => exact computes_of_finish (fun _ => rfl) fun s => toNat_ushiftRight_eq_div (s.readReg rs1) _
  case sra => exact computes_of_finish (fun _ => rfl) fun s => toInt_sshiftRight_eq_div (s.readReg rs1) _

end Sys2Proof.Proofs
end

section
/-! SUPPORT. Decoding what was encoded (`30_encoding.md` sections 1 to 3): the fields an encoded word has select the
instruction that was encoded, and hold its operands. -/

namespace Sys2Proof.Proofs

open Sys2Proof Sys2Proof.Machine Sys2Proof.Claims Sys2Proof.Laws

/-! ## One lemma a format: a word of the format decodes as a row `mk` of its selecting fields says (R72 to R79) -/

section
variable {op : BitVec 7} {f3 : BitVec 3} (rd rs1 rs2 : Reg)

theorem decodes_encodeU {mk : Reg → BitVec 20 → Instr} (h : ∀ w, opcodeOf w = op → Decodes w (mk (rdOf w) (immU w)))
    (imm : BitVec 20) : Decodes (encodeU imm rd op) (mk rd imm) := by
  simpa using h _ (opcodeOf_encodeU imm rd op)

theorem decodes_encodeJ {mk : Reg → BitVec 21 → Instr} (h : ∀ w, opcodeOf w = op → Decodes w (mk (rdOf w) (immJ w)))
    {imm : BitVec 21} (heven : evenOffset 21 imm = true) : Decodes (encodeJ imm rd op) (mk rd imm) := by
  simpa [immJ_encodeJ _ _ _ heven] using h _ (opcodeOf_encodeJ imm rd op)

theorem decodes_encodeI {mk : Reg → Reg → BitVec 12 → Instr}
    (h : ∀ w, opcodeOf w = op → funct3Of w = f3 → Decodes w (mk (rdOf w) (rs1Of w) (immI w))) (imm : BitVec 12) :
    Decodes (encodeI imm rs1 f3 rd op) (mk rd rs1 imm) := by
  simpa using h _ (opcodeOf_encodeI imm rs1 f3 rd op) (funct3Of_encodeI ..)

theorem decodes_encodeS {mk : Reg → Reg → BitVec 12 → Instr}
    (h : ∀ w, opcodeOf w = op → funct3Of w = f3 → Decodes w (mk (rs1Of w) (rs2Of w) (immS w))) (imm : BitVec 12) :
    Decodes (encodeS imm rs2 rs1 f3 op) (mk rs1 rs2 imm) := by
  simpa using h _ (opcodeOf_encodeS imm rs2 rs1 f3 op) (funct3Of_encodeS ..)

theorem decodes_encodeB {mk : Reg → Reg → BitVec 13 → Instr}
    (h : ∀ w, opcodeOf w = op → funct3Of w = f3 → Decodes w (mk (rs1Of w) (rs2Of w) (immB w))) {imm : BitVec 13}
    (heven : evenOffset 13 imm = true) : Decodes (encodeB imm rs2 rs1 f3 op) (mk rs1 rs2 imm) := by
  simpa [immB_encodeB _ _ _ _ _ heven] using h _ (opcodeOf_encodeB imm rs2 rs1 f3 op) (funct3Of_encodeB ..)

theorem decodes_encodeR {f7 : BitVec 7} {mk : Reg → Reg → Reg → Instr}
    (h : ∀ w, opcodeOf w = op → funct3Of w = f3 → funct7Of w = f7 → Decodes w (mk (rdOf w) (rs1Of w) (rs2Of w))) :
    Decodes (encodeR f7 rs2 rs1 f3 rd op) (mk rd rs1 rs2) := by
  simpa using h _ (opcodeOf_encodeR f7 rs2 rs1 f3 rd op) (funct3Of_encodeR ..) (funct7Of_encodeR ..)

theorem decodes_encodeShift6 {m : BitVec 6} {mk : Reg → Reg → BitVec 6 → Instr}
    (h : ∀ w, opcodeOf w = op → funct3Of w = f3 → mode6Of w = m → Decodes w (mk (rdOf w) (rs1Of w) (shamt6Of w)))
    (shamt : BitVec 6) : Decodes (encodeShift6 m shamt rs1 f3 rd op) (mk rd rs1 shamt) := by
  simpa using h _ (opcodeOf_encodeShift6 m shamt rs1 f3 rd op) (funct3Of_encodeShift6 ..) (mode6Of_encodeShift6 ..)

theorem decodes_encodeShift5 {f7 : BitVec 7} {mk : Reg → Reg → BitVec 5 → Instr}
    (h : ∀ w, opcodeOf w = op → funct3Of w = f3 → funct7Of w = f7 → Decodes w (mk (rdOf w) (rs1Of w) (shamt5Of w)))
    (shamt : BitVec 5) : Decodes (encodeShift5 f7 shamt rs1 f3 rd op) (mk rd rs1 shamt) := by
  simpa using h _ (opcodeOf_encodeShift5 f7 shamt rs1 f3 rd op) (funct3Of_encodeShift5 ..) (funct7Of_encodeShift5 ..)

end

/-! ## Every instruction -/

/-- The word of a well-formed instruction has the fields that select it, and they hold its operands: in each case the
row of `Decodes` is the one whose selecting fields the encoder wrote. -/
theorem decodes_encode {i : Instr} (h : i.wellFormed = true) : Decodes (encode i) i := by
  cases i
  case lui | auipc => exact decodes_encodeU _ (fun _ _ => by constructor; assumption) _
  case jal => exact decodes_encodeJ _ (fun _ => .jal) h
  case beq | bne | blt | bge | bltu | bgeu =>
    exact decodes_encodeB _ _ (fun _ _ _ => by constructor <;> assumption) h
  case sb | sh | sw | sd => exact decodes_encodeS _ _ (fun _ _ _ => by constructor <;> assumption) _
  case slli | srli | srai => exact decodes_encodeShift6 _ _ (fun _ _ _ _ => by constructor <;> assumption) _
  case slliw | srliw | sraiw => exact decodes_encodeShift5 _ _ (fun _ _ _ _ => by constructor <;> assumption) _
  case ecall => exact decodes_ecall_iff.2 ⟨rfl, rfl, rfl⟩
  case ebreak => exact decodes_ebreak_iff.2 ⟨rfl, rfl, rfl⟩
  case jalr | lb | lh | lw | lbu | lhu | lwu | ld | addi | slti | sltiu | xori | ori | andi | addiw =>
    exact decodes_encodeI _ _ (fun _ _ _ => by constructor <;> assumption) _
  case add | sub | sll | slt | sltu | xor | srl | sra | or | and | addw | subw | sllw | srlw | sraw =>
    exact decodes_encodeR _ _ _ fun _ _ _ _ => by constructor <;> assumption

/-- On bytes: the four bytes of a word that decodes are taken, and whatever follows is handed back (R70). -/
theorem decodeBytes_bytesOfWord {w : InstrWord} {i : Instr} (h : decodeWord w = .ok i) (rest : List Byte) :
    decodeBytes (bytesOfWord w ++ rest) = .ok (i, rest) := by
  simp only [bytesOfWord, List.cons_append, List.nil_append, decodeBytes, wordOfBytes_bytesOfWord, h]

/-- Settles O1: the encoder writes the selecting fields of the instruction's own row, and every operand into the field
it is read from. -/
theorem decodeOfEncodeIsTheInstruction : Obligations.DecodeOfEncodeIsTheInstruction := by
  intro i h
  have hdec := (decode_iff (encode i) i).2 (decodes_encode h)
  exact ⟨hdec, decodeBytes_bytesOfWord hdec⟩

end Sys2Proof.Proofs
end

section
/-! SUPPORT. ECALL and EBREAK (`48_system.md`): what taking an exit leaves of the state. -/

namespace Sys2Proof.Proofs

open Sys2Proof Sys2Proof.Machine Sys2Proof.Claims Sys2Proof.Laws

/-- An instruction whose arm takes the exit `e` changes the report alone, so that taken again it gives the same state
(R226). -/
theorem exits_of_takeExit {i : Instr} {e : VmExit} (hexec : ∀ s, exec i s = takeExit e s) : Exits i e := by
  intro s
  exact ⟨_, (hexec s).trans (takeExit_eq e s), rfl, ⟨fun _ => rfl, ⟨rfl, fun _ => rfl⟩, rfl, rfl⟩, hexec _⟩

/-- Settles O40: the words of its row are exactly those that decode to ECALL, whose arm takes the exit. -/
theorem ecallTakesTheSyscallExit : Obligations.EcallTakesTheSyscallExit := by
  obtain ⟨-, hecall, -⟩ := encodeOfDecodeIsTheWord
  exact ⟨fun w => (hecall w).2, exits_of_takeExit fun _ => rfl⟩

/-- Settles O41: the words of its row are exactly those that decode to EBREAK, whose arm takes the exit. -/
theorem ebreakTakesTheNotImplementedExit : Obligations.EbreakTakesTheNotImplementedExit := by
  obtain ⟨-, -, hebreak⟩ := encodeOfDecodeIsTheWord
  exact ⟨fun w => (hebreak w).2, exits_of_takeExit fun _ => rfl⟩

end Sys2Proof.Proofs
end

section
/-! SUPPORT. The nine word-width instructions (`49_word_ops.md`): the low word of an operand and the sign-extended 32-bit
result as numbers. -/

namespace Sys2Proof.Proofs

open Sys2Proof Sys2Proof.Machine Sys2Proof.Claims Sys2Proof.Laws

/-! ## Low words and 32-bit results as numbers (R124, R204) -/

theorem toNat_low32 (v : Word) : (low32 v).toNat = v.toNat % 2 ^ 32 := by
  rw [low32, toNat_slice, Nat.pow_zero, Nat.div_one]

/-- Sign extension keeps the signed reading. -/
theorem toInt_sext32 (r : BitVec 32) : (sext32 r).toInt = r.toInt :=
  BitVec.toInt_signExtend_of_le (by decide)

theorem toInt_sext32_eq_signed (r : BitVec 32) : (sext32 r).toInt = signed 32 r.toNat :=
  toInt_signExtend_eq_signed (by decide) r

/-- A low word, read as signed, is the balanced residue modulo 2^32. -/
theorem toInt_low32 (v : Word) : (low32 v).toInt = Int.bmod v.toNat (2 ^ 32) := by
  rw [BitVec.toInt_eq_toNat_bmod, toNat_low32, Int.natCast_emod, Int.emod_bmod]

/-- Reducing the extended immediate modulo 2^64 first leaves its residue modulo 2^32. -/
theorem toInt_low32_imm12 (imm : BitVec 12) : (low32 (imm12 imm)).toInt = Int.bmod imm.toInt (2 ^ 32) := by
  rw [toInt_low32, toNat_imm12, ← Int.emod_bmod, Int.emod_emod_of_dvd _ (by decide), Int.emod_bmod]

/-- The balanced residue of a sum is that of the sum of residues. -/
theorem toInt_sext32_add {x y : BitVec 32} {a b : Int} (hx : x.toInt = a.bmod (2 ^ 32)) (hy : y.toInt = b.bmod (2 ^ 32)) :
    (sext32 (x + y)).toInt = (a + b).bmod (2 ^ 32) := by
  rw [toInt_sext32, BitVec.toInt_add, hx, hy, Int.bmod_add_bmod, Int.add_bmod_bmod]

/-- The balanced residue of a difference is that of the difference of residues. -/
theorem toInt_sext32_sub {x y : BitVec 32} {a b : Int} (hx : x.toInt = a.bmod (2 ^ 32)) (hy : y.toInt = b.bmod (2 ^ 32)) :
    (sext32 (x - y)).toInt = (a - b).bmod (2 ^ 32) := by
  rw [toInt_sext32, BitVec.toInt_sub, hx, hy, Int.bmod_sub_bmod, Int.sub_bmod_bmod]

/-! ## Shifts of a low word (R206 to R208, R211 to R213) -/

/-- The 59 bits above the amount do not count (D16). -/
theorem amount5_eq_mod (v : Word) : amount5 v = v.toNat % 32 := by
  rw [amount5, toNat_slice]
  omega

section
variable (v : Word) (n : Nat)

theorem toInt_sext32_shiftLeft :
    (sext32 (low32 v <<< n)).toInt = signed 32 (v.toNat % 2 ^ 32 * 2 ^ n % 2 ^ 32) := by
  rw [toInt_sext32_eq_signed, toNat_shiftLeft_eq_mul, toNat_low32]

theorem toInt_sext32_ushiftRight : (sext32 (low32 v >>> n)).toInt = signed 32 (v.toNat % 2 ^ 32 / 2 ^ n) := by
  rw [toInt_sext32_eq_signed, toNat_ushiftRight_eq_div, toNat_low32]

theorem toInt_sext32_sshiftRight :
    (sext32 ((low32 v).sshiftRight n)).toInt = signed 32 (v.toNat % 2 ^ 32) / 2 ^ n := by
  rw [toInt_sext32, toInt_sshiftRight_eq_div, toInt_eq_signed (by decide), toNat_low32]

end

/-! ## The nine instructions (R205 to R213) -/

/-- Settles O37: each operand is its residue modulo 2^32, and so is the 32-bit sum or difference of them. -/
theorem wordAddSubSignExtend : Obligations.WordAddSubSignExtend :=
  ⟨selects_of_funct3 rfl fun _ => .addiw, selects_of_funct7 rfl fun _ => .addw, selects_of_funct7 rfl fun _ => .subw,
    fun _ _ imm => computes_of_finish (fun _ => rfl) fun _ => toInt_sext32_add (toInt_low32 _) (toInt_low32_imm12 imm),
    fun _ _ _ => ⟨computes_of_finish (fun _ => rfl) fun _ => toInt_sext32_add (toInt_low32 _) (toInt_low32 _),
      computes_of_finish (fun _ => rfl) fun _ => toInt_sext32_sub (toInt_low32 _) (toInt_low32 _)⟩⟩

/-- Settles O38: each shift is a product or a quotient by a power of two of the low word, and no word of the opcode with
bit 25 set is a shift. -/
theorem wordShiftImmediatesSignExtend : Obligations.WordShiftImmediatesSignExtend := by
  obtain ⟨-, hbit25⟩ := fieldsOfShiftImmediates
  exact ⟨selects_of_funct7 rfl fun _ => .slliw, selects_of_funct7 rfl fun _ => .srliw,
    selects_of_funct7 rfl fun _ => .sraiw, fun w hop h3 => hbit25 w hop (.inl h3), fun _ rs1 sh =>
    ⟨computes_of_finish (fun _ => rfl) fun s => toInt_sext32_shiftLeft (s.readReg rs1) sh.toNat,
      computes_of_finish (fun _ => rfl) fun s => toInt_sext32_ushiftRight (s.readReg rs1) sh.toNat,
      computes_of_finish (fun _ => rfl) fun s => toInt_sext32_sshiftRight (s.readReg rs1) sh.toNat⟩⟩

/-- Settles O39: the same shifts of the low word, by the amount x[rs2] mod 32. -/
theorem wordRegisterShiftsSignExtend : Obligations.WordRegisterShiftsSignExtend := by
  refine ⟨selects_of_funct7 rfl fun _ => .sllw, selects_of_funct7 rfl fun _ => .srlw,
    selects_of_funct7 rfl fun _ => .sraw, fun _ rs1 rs2 => ?_⟩
  simp only [← amount5_eq_mod]
  exact ⟨computes_of_finish (fun _ => rfl) fun s => toInt_sext32_shiftLeft (s.readReg rs1) _,
    computes_of_finish (fun _ => rfl) fun s => toInt_sext32_ushiftRight (s.readReg rs1) _,
    computes_of_finish (fun _ => rfl) fun s => toInt_sext32_sshiftRight (s.readReg rs1) _⟩

end Sys2Proof.Proofs
end

section
/-! SUPPORT. The exits and the fatal fault (`60_exceptions.md`): which instruction reports which exit, which access is a
bounds violation, and what the host may write between steps. -/

namespace Sys2Proof.Proofs

open Sys2Proof Sys2Proof.Machine Sys2Proof.Claims Sys2Proof.Laws

/-! ## Exits (R220 to R223, R226) -/

/-- The exit that an instruction's arm reports, if any (R222, R223). -/
def reportOf (i : Instr) : Option VmExit :=
  match i with
  | .ecall => some .syscall
  | .ebreak => some .notImplemented
  | _ => none

theorem reportOf_eq_some_iff {i : Instr} {e : VmExit} :
    reportOf i = some e ↔ i = .ecall ∧ e = .syscall ∨ i = .ebreak ∧ e = .notImplemented := by
  cases i <;> simp [reportOf, eq_comm]

/-- The report of an instruction that has a next state depends on the instruction alone. -/
theorem exec_exit {i : Instr} {s t : State} (h : exec i s = .next t) : t.exit = reportOf i := by
  cases i
  case lb | lh | lw | lbu | lhu | lwu | ld =>
    obtain ⟨-, v, rfl⟩ := load_next h
    rfl
  case sb | sh | sw | sd =>
    obtain ⟨-, rfl⟩ := store_next h
    rfl
  all_goals
    cases Host.Outcome.next.inj h
    rfl

/-- Settles O45: of the effects a step can have, only the exit leaves a report. -/
theorem exitsChangeNothing : Obligations.ExitsChangeNothing :=
  fun _ _ _ => step_exit

/-- Settles O46: a word that no row matches reports `InvalidOpcode` of itself, and any other what its instruction
reports. -/
theorem exitsHaveExactlyTheirCauses : Obligations.ExitsHaveExactlyTheirCauses := by
  intro s t h
  obtain ⟨-, hs⟩ | ⟨w, -, hf, ⟨e, hd, hs⟩ | ⟨i, hd, hs⟩⟩ := step_cases s
  · cases hs.symm.trans h
  · obtain rfl := decode_error hd
    obtain rfl := Host.Outcome.next.inj (hs.symm.trans h)
    refine ⟨w, hf, fun u => ?invalid, ?notImplemented, ?syscall⟩
    case invalid =>
      have hrow := decode_invalid_iff_no_row.1 hd
      exact ⟨fun hu => by cases hu; exact ⟨rfl, hrow⟩, fun ⟨hu, _⟩ => hu ▸ rfl⟩
    case notImplemented | syscall => simp [hd]
  · refine ⟨w, hf, fun u => ?invalid, ?notImplemented, ?syscall⟩
    all_goals rw [exec_exit (hs.symm.trans h), reportOf_eq_some_iff]
    case invalid =>
      have hrow : ¬ ∀ r ∈ opcodeTable, w &&& r.mask ≠ r.bits := by
        rw [← decode_invalid_iff_no_row, hd]
        exact nofun
      simp [hrow]
    case notImplemented | syscall => simp [hd]

/-! ## Bounds violations (R45, R224) -/

section
variable {s : State} {f : Fault}

theorem load_fault {n : Nat} {ext : Nat → Word} {rd rs1 : Reg} {imm : BitVec 12}
    (h : load n ext rd rs1 imm s = .fault f) : s.mem.size < (effectiveAddress s rs1 imm).toNat + n ∧
      f = .boundsViolation (effectiveAddress s rs1 imm) n := by
  by_cases hb : (effectiveAddress s rs1 imm).toNat + n ≤ s.mem.size
  · cases (load_inside ext rd hb).symm.trans h
  · have hout := Nat.lt_of_not_le hb
    exact ⟨hout, (Host.Outcome.fault.inj ((load_outside ext rd hout).symm.trans h)).symm⟩

theorem store_fault {n : Nat} {rs1 rs2 : Reg} {imm : BitVec 12} (h : store n rs1 rs2 imm s = .fault f) :
    s.mem.size < (effectiveAddress s rs1 imm).toNat + n ∧ f = .boundsViolation (effectiveAddress s rs1 imm) n := by
  by_cases hb : (effectiveAddress s rs1 imm).toNat + n ≤ s.mem.size
  · cases (store_inside rs2 hb).symm.trans h
  · have hout := Nat.lt_of_not_le hb
    exact ⟨hout, (Host.Outcome.fault.inj ((store_outside rs2 hout).symm.trans h)).symm⟩

theorem exec_store_outside {i : Instr} {addr : Word} {n : Nat} (h : storeAccess i s = some (addr, n))
    (hout : s.mem.size < addr.toNat + n) : exec i s = .fault (.boundsViolation addr n) := by
  cases i
  case sb | sh | sw | sd =>
    cases h
    exact store_outside _ hout
  all_goals cases h

/-- An arm faults exactly where it loads or stores outside memory. -/
theorem exec_fault_iff {i : Instr} : exec i s = .fault f ↔ ∃ addr n,
    (loadAccess i s = some (addr, n) ∨ storeAccess i s = some (addr, n)) ∧ s.mem.size < addr.toNat + n ∧
      f = .boundsViolation addr n := by
  constructor
  · intro h
    cases i
    case lb | lh | lw | lbu | lhu | lwu | ld => exact ⟨_, _, .inl rfl, load_fault h⟩
    case sb | sh | sw | sd => exact ⟨_, _, .inr rfl, store_fault h⟩
    all_goals cases h
  · rintro ⟨addr, n, hload | hstore, hout, rfl⟩
    · exact exec_load_outside hload hout
    · exact exec_store_outside hstore hout

end

/-- Settles O47: a step faults where its fetch does or where the arm it runs does. -/
theorem boundsViolationsHaveExactlyTheirCauses : Obligations.BoundsViolationsHaveExactlyTheirCauses := by
  intro s f
  constructor
  · intro h
    obtain ⟨hout, hs⟩ | ⟨w, -, hf, ⟨e, -, hs⟩ | ⟨i, hd, hs⟩⟩ := step_cases s
    · exact .inl ⟨hout, Host.Outcome.fault.inj (h.symm.trans hs)⟩
    · cases hs.symm.trans h
    · obtain ⟨addr, n, hcause⟩ := exec_fault_iff.1 (hs.symm.trans h)
      exact .inr ⟨w, i, addr, n, hf, hd, hcause⟩
  · rintro (⟨hout, rfl⟩ | ⟨w, i, addr, n, hf, hd, hcause⟩)
    · exact step_of_fetch_error (fetch_outside hout)
    · exact (step_of_decode hf hd).trans (exec_fault_iff.2 ⟨addr, n, hcause⟩)

/-! ## The closed set of outcomes (R220, R229) -/

/-- Settles O48: the phases of `step_cases` in order, and an arm that is not refused exits, completes or faults. -/
theorem outcomesAreClosedAndOrdered : Obligations.OutcomesAreClosedAndOrdered := by
  intro s
  obtain ⟨hout, hs⟩ | ⟨w, hin, hf, ⟨e, hd, hs⟩ | ⟨i, hd, hs⟩⟩ := step_cases s
  · exact .inl ⟨hout, hs⟩
  · exact .inr ⟨hin, w, hf, .inl ⟨decode_error hd ▸ hd, hs⟩⟩
  · refine .inr ⟨hin, w, hf, .inr ⟨i, hd, ?_⟩⟩
    obtain ⟨f, h⟩ | ⟨t, e, h, he⟩ | ⟨t, h, ht⟩ := step_outcomes s
    · obtain ⟨addr, n, hacc, -, rfl⟩ := exec_fault_iff.1 (hs.symm.trans h)
      exact .inr (.inr (.inr ⟨addr, n, h, hacc⟩))
    · have hreport := (exec_exit (hs.symm.trans h)).symm.trans he
      rw [step_exit h he] at h
      obtain ⟨rfl, rfl⟩ | ⟨rfl, rfl⟩ := reportOf_eq_some_iff.1 hreport
      · exact .inl ⟨rfl, h⟩
      · exact .inr (.inl ⟨rfl, h⟩)
    · exact .inr (.inr (.inl ⟨t, h, ht⟩))

/-! ## The host between steps (R231 to R233) -/

theorem hostWriteMem_inside {s : State} {addr : Word} {bs : List Byte} (h : addr.toNat + bs.length ≤ s.mem.size) :
    s.hostWriteMem addr bs = .ok { s with mem := s.mem.setBytes addr.toNat bs } := by
  simp only [State.hostWriteMem, write_inside h]

theorem hostWriteMem_outside {s : State} {addr : Word} {bs : List Byte} (h : s.mem.size < addr.toNat + bs.length) :
    s.hostWriteMem addr bs = .error (.boundsViolation addr bs.length) := by
  simp only [State.hostWriteMem, write_outside h]

theorem writeReg_sameMemory (s : State) (r : Reg) (v : Word) : SameMemory s (s.writeReg r v) := by
  simp [SameMemory]

theorem writeReg_wf {s : State} (hs : s.wf) (r : Reg) (v : Word) : (s.writeReg r v).wf := by
  simpa [State.wf] using hs

/-- Settles O56: each of the host's writes is one update of the state, and of memory one that is checked first. -/
theorem hostWritesObeyTheContract : Obligations.HostWritesObeyTheContract := by
  intro s hs
  refine ⟨fun v => ?pc, fun r v => ?reg, fun addr bs => ⟨fun hin => ?mem, hostWriteMem_outside⟩⟩
  case pc => exact ⟨rfl, fun _ => rfl, ⟨rfl, fun _ => rfl⟩, rfl, rfl, hs⟩
  case reg =>
    exact ⟨writeReg_wf hs r v, fun q => readReg_writeReg s r q v, writeReg_sameMemory s r v, writeReg_pc s r v,
      writeReg_exit s r v, writeReg_curAlloc s r v⟩
  case mem =>
    obtain ⟨hmem, hsize⟩ := hs
    exact ⟨_, hostWriteMem_inside hin, ⟨setBytes_wf hmem hin, by simpa using hsize⟩, fun _ => rfl, rfl, rfl, rfl,
      setBytes_size .., byte_setBytes hmem hin⟩

/-- Settles O57: the step that reports `Syscall` left the pc on the ECALL, and the resume moves it alone. -/
theorem hostResumesPastTheEcall : Obligations.HostResumesPastTheEcall := by
  intro s t h ht
  rw [step_exit h ht]
  exact ⟨rfl, rfl, rfl, rfl, rfl, rfl⟩

end Sys2Proof.Proofs
end

section
/-! SUPPORT. Loading a segment, the allocator and the reset state (`70_reset_and_hazards.md`). -/

namespace Sys2Proof.Proofs

open Sys2Proof Sys2Proof.Machine Sys2Proof.Claims Sys2Proof.Laws

theorem loadImage_cons (s : State) (g : Segment) (gs : List Segment) :
    loadImage s (g :: gs) = (loadSegment s g).bind fun t => loadImage t gs := by
  rw [loadImage]
  cases loadSegment s g <;> rfl

/-- Settles O54: a segment is skipped, or leaves its bytes and moves the cursor up to its end, or does not fit. -/
theorem loadSegmentAndAlloc : Obligations.LoadSegmentAndAlloc := by
  refine ⟨fun s g hs => ⟨loadSegment_skipped s, fun h0 hin => ?_, loadSegment_outside⟩, loadImage_cons, fun _ _ => rfl⟩
  obtain ⟨t, ht, hl⟩ := loadSegment_of_fits hs (.inr hin)
  refine ⟨t, ht, hl.x, hl.pc, hl.exit, hl.size, ?_, fun a => ?_⟩
  · exact hl.cursor.trans (segmentEnd_loaded h0 _)
  · exact (hl.byte a).trans (segmentByte_loaded h0 a _)

/-- Settles O44: the reset state is the machine as it is constructed, with no segment to load. -/
theorem resetIsWellFormed : Obligations.ResetIsWellFormed :=
  ⟨construct_wf (p := Config.params) (by decide), rfl⟩

end Sys2Proof.Proofs
end

section
/-! SUPPORT. A load after a store (`95_test_vectors.md` S6): the value that a load of the width just stored gives. -/

namespace Sys2Proof.Proofs

open Sys2Proof Sys2Proof.Machine Sys2Proof.Claims Sys2Proof.Laws

/-- A store inside memory completes, and a load of its width and address from the state after it puts the low `n` bytes
of the stored register, extended, into rd. -/
theorem load_after_store {s : State} (hm : s.mem.wf) {n : Nat} {rs1 : Reg} (rs2 : Reg) {imm : BitVec 12}
    (hin : (effectiveAddress s rs1 imm).toNat + n ≤ s.mem.size) :
    ∃ t, store n rs1 rs2 imm s = .next t ∧ ∀ (ext : Nat → Word) {rd rs1' : Reg} {imm' : BitVec 12}, rd ≠ 0 →
      effectiveAddress t rs1' imm' = effectiveAddress s rs1 imm →
      ∃ u, load n ext rd rs1' imm' t = .next u ∧ u.readReg rd = ext ((s.readReg rs2).toNat % 2 ^ (8 * n)) := by
  refine ⟨_, store_inside rs2 hin, fun ext rd rs1' imm' hrd haddr => ?_⟩
  have hread := storedAt_memRead (setBytes_storedAt hm (s.readReg rs2) hin) hin (k := 0) rfl (Nat.zero_add n).le
  rw [Nat.mul_zero, Nat.pow_zero, Nat.div_one] at hread
  simp only [load, haddr, retire_mem, hread]
  exact ⟨_, finish_eq rd _ _, readReg_writeReg_same _ rd _ hrd⟩

/-- Settles O53: the low four bytes of the register are sign-extended, and all eight are the register. -/
theorem loadAfterStoreGivesTheValue : Obligations.LoadAfterStoreGivesTheValue := by
  rintro s rs1 rs2 rd rs1' imm imm' ⟨hm, -⟩ hrd
  refine ⟨fun hin => ?word, fun hin => ?doubleword⟩
  all_goals
    obtain ⟨t, hstore, hload⟩ := load_after_store hm rs2 hin
    refine ⟨t, hstore, fun haddr => ?_⟩
  case word =>
    obtain ⟨u, hu, hv⟩ := hload (sextLoaded 32) hrd haddr
    exact ⟨u, hu, hv ▸ toInt_sextLoaded (by decide) (Nat.mod_lt _ (by decide))⟩
  case doubleword =>
    obtain ⟨u, hu, hv⟩ := hload (zextLoaded 64) hrd haddr
    refine ⟨u, hu, BitVec.eq_of_toNat_eq ?_⟩
    rw [hv, toNat_zextLoaded (by decide) (Nat.mod_lt _ (by decide)), Nat.mod_eq_of_lt (s.readReg rs2).isLt]

end Sys2Proof.Proofs
end
